-- ==== Sys2Proof/Config.lean ====
section
/-! DEFINITION. The parameters whose values the spec fixes (00_scope.md R5), and the type of the one parameter that
chooses between two readings. The values of the parameters the spec leaves open stand in Machine/Params.lean. -/

namespace Sys2Proof.Config

/-- Words of the instruction ROM; its addresses are 0 to 32767 (R5 `ROM_SIZE`). -/
def romSize : Nat := 32768

/-- Words of the data memory; its addresses are 0 to 24576 (R5 `TOTAL_SIZE`). -/
def totalSize : Nat := 24577

/-- First address of the screen bitmap (R5 `SCREEN_BASE`). -/
def screenBase : Nat := 16384

/-- Words of the screen bitmap; its last address is 24575 (R5 `SCREEN_WORDS`). -/
def screenWords : Nat := 8192

/-- Address of the keyboard register (R5 `KBD_ADDR`). -/
def kbdAddr : Nat := 24576

/-- First address the assembler gives to a variable (R5 `VAR_BASE`). -/
def varBase : Nat := 16

/-- Largest binary image, in bytes, that the loader accepts (R5 `IMAGE_MAX_BYTES`). -/
def imageMaxBytes : Nat := 65536

/-- The values of the parameter `M_ADDR_SEL` (41_compute_instruction.md R178): the memory write of an instruction
that also writes `A` goes to the old value of `A`, or to the new one. -/
inductive MAddrSel where
  | pre
  | post
  deriving DecidableEq, Repr

end Sys2Proof.Config
end

