-- ==== Sys2Proof/Word.lean ====
section
/-! DEFINITION. The bit-vector types of the machine and of the assembler. -/

namespace Sys2Proof

/-- The 16-bit word: an instruction, `D`, `A`, `PC`, a memory word, a ROM word (00_scope.md R5, R7, R8). -/
abbrev Word := BitVec 16

/-- One byte of the serialised program image; the machine itself has no bytes (20_memory.md R59, R60). -/
abbrev Byte := BitVec 8

/-- A 15-bit address: the address field of an address instruction, and an address of the symbol table
(00_scope.md R5 `ADDR_BITS`; 30_encoding.md R92, R127). -/
abbrev Addr15 := BitVec 15

end Sys2Proof
end

