-- ==== Sys2Proof/Syntax.lean ====
section
/-! DEFINITION. The syntax: destination and jump masks, the 28 computations, the instructions (one constructor per row
of spec/opcode_table.json), and the lines of the assembly language. -/

namespace Sys2Proof

/-- The destination mask `d`, three independent bits: write `A` (instruction bit 5), write `D` (bit 4), write the
memory word `M` (bit 3). All eight values are legal (30_encoding.md R97, R101). -/
structure Dest where
  a : Bool
  d : Bool
  m : Bool
  deriving DecidableEq, Repr

/-- The jump mask `j`, three independent bits: jump when the result is negative (instruction bit 2), zero (bit 1),
positive (bit 0). All eight values are legal (30_encoding.md R98, R102). -/
structure Jump where
  neg  : Bool
  zero : Bool
  pos  : Bool
  deriving DecidableEq, Repr

/-- The 28 legal computations, in the order of 30_encoding.md R100 and 42_alu_computations.md R201 to R228. -/
inductive Comp where
  | zero -- `0`, R201
  | one -- `1`, R202
  | negOne -- `-1`, R203
  | regD -- `D`, R204
  | regA -- `A`, R205
  | notD -- `!D`, R206
  | notA -- `!A`, R207
  | negD -- `-D`, R208
  | negA -- `-A`, R209
  | incD -- `D+1`, R210
  | incA -- `A+1`, R211
  | decD -- `D-1`, R212
  | decA -- `A-1`, R213
  | addDA -- `D+A`, R214
  | subDA -- `D-A`, R215
  | subAD -- `A-D`, R216
  | andDA -- `D&A`, R217
  | orDA -- `D|A`, R218
  | memM -- `M`, R219
  | notM -- `!M`, R220
  | negM -- `-M`, R221
  | incM -- `M+1`, R222
  | decM -- `M-1`, R223
  | addDM -- `D+M`, R224
  | subDM -- `D-M`, R225
  | subMD -- `M-D`, R226
  | andDM -- `D&M`, R227
  | orDM -- `D|M`, R228
  deriving DecidableEq, Repr

/-- All computations, in the order of 30_encoding.md R100. -/
def Comp.all : List Comp :=
  [.zero, .one, .negOne, .regD, .regA, .notD, .notA, .negD, .negA, .incD] ++
  [.incA, .decD, .decA, .addDA, .subDA, .subAD, .andDA, .orDA, .memM, .notM] ++
  [.negM, .incM, .decM, .addDM, .subDM, .subMD, .andDM, .orDM]

/-- The instructions. `addr` is the address instruction `@value` (30_encoding.md R92); every other constructor is the
compute instruction `[dest=]comp[;jump]` (R93) of the computation it is named after. The types of the arguments hold
exactly the legal values of the fields, so every term is an instruction of the machine (R92, R97, R98, R103). -/
inductive Instr where
  | addr (value : Addr15) -- `@value`, R160
  | zero (dest : Dest) (jump : Jump) -- `0`, R201
  | one (dest : Dest) (jump : Jump) -- `1`, R202
  | negOne (dest : Dest) (jump : Jump) -- `-1`, R203
  | regD (dest : Dest) (jump : Jump) -- `D`, R204
  | regA (dest : Dest) (jump : Jump) -- `A`, R205
  | notD (dest : Dest) (jump : Jump) -- `!D`, R206
  | notA (dest : Dest) (jump : Jump) -- `!A`, R207
  | negD (dest : Dest) (jump : Jump) -- `-D`, R208
  | negA (dest : Dest) (jump : Jump) -- `-A`, R209
  | incD (dest : Dest) (jump : Jump) -- `D+1`, R210
  | incA (dest : Dest) (jump : Jump) -- `A+1`, R211
  | decD (dest : Dest) (jump : Jump) -- `D-1`, R212
  | decA (dest : Dest) (jump : Jump) -- `A-1`, R213
  | addDA (dest : Dest) (jump : Jump) -- `D+A`, R214
  | subDA (dest : Dest) (jump : Jump) -- `D-A`, R215
  | subAD (dest : Dest) (jump : Jump) -- `A-D`, R216
  | andDA (dest : Dest) (jump : Jump) -- `D&A`, R217
  | orDA (dest : Dest) (jump : Jump) -- `D|A`, R218
  | memM (dest : Dest) (jump : Jump) -- `M`, R219
  | notM (dest : Dest) (jump : Jump) -- `!M`, R220
  | negM (dest : Dest) (jump : Jump) -- `-M`, R221
  | incM (dest : Dest) (jump : Jump) -- `M+1`, R222
  | decM (dest : Dest) (jump : Jump) -- `M-1`, R223
  | addDM (dest : Dest) (jump : Jump) -- `D+M`, R224
  | subDM (dest : Dest) (jump : Jump) -- `D-M`, R225
  | subMD (dest : Dest) (jump : Jump) -- `M-D`, R226
  | andDM (dest : Dest) (jump : Jump) -- `D&M`, R227
  | orDM (dest : Dest) (jump : Jump) -- `D|M`, R228
  deriving DecidableEq, Repr

/-- The fields of an instruction: `AInstr` and `CInstr` of the decoder of 30_encoding.md R108. -/
inductive Form where
  | address (value : Addr15)
  | compute (comp : Comp) (dest : Dest) (jump : Jump)
  deriving DecidableEq, Repr

/-- The fields of an instruction. -/
def Instr.form : Instr → Form
  | .addr value => .address value
  | .zero dest jump => .compute .zero dest jump
  | .one dest jump => .compute .one dest jump
  | .negOne dest jump => .compute .negOne dest jump
  | .regD dest jump => .compute .regD dest jump
  | .regA dest jump => .compute .regA dest jump
  | .notD dest jump => .compute .notD dest jump
  | .notA dest jump => .compute .notA dest jump
  | .negD dest jump => .compute .negD dest jump
  | .negA dest jump => .compute .negA dest jump
  | .incD dest jump => .compute .incD dest jump
  | .incA dest jump => .compute .incA dest jump
  | .decD dest jump => .compute .decD dest jump
  | .decA dest jump => .compute .decA dest jump
  | .addDA dest jump => .compute .addDA dest jump
  | .subDA dest jump => .compute .subDA dest jump
  | .subAD dest jump => .compute .subAD dest jump
  | .andDA dest jump => .compute .andDA dest jump
  | .orDA dest jump => .compute .orDA dest jump
  | .memM dest jump => .compute .memM dest jump
  | .notM dest jump => .compute .notM dest jump
  | .negM dest jump => .compute .negM dest jump
  | .incM dest jump => .compute .incM dest jump
  | .decM dest jump => .compute .decM dest jump
  | .addDM dest jump => .compute .addDM dest jump
  | .subDM dest jump => .compute .subDM dest jump
  | .subMD dest jump => .compute .subMD dest jump
  | .andDM dest jump => .compute .andDM dest jump
  | .orDM dest jump => .compute .orDM dest jump

/-- The compute instruction of a computation. -/
def Comp.instr (dest : Dest) (jump : Jump) : Comp → Instr
  | .zero => .zero dest jump
  | .one => .one dest jump
  | .negOne => .negOne dest jump
  | .regD => .regD dest jump
  | .regA => .regA dest jump
  | .notD => .notD dest jump
  | .notA => .notA dest jump
  | .negD => .negD dest jump
  | .negA => .negA dest jump
  | .incD => .incD dest jump
  | .incA => .incA dest jump
  | .decD => .decD dest jump
  | .decA => .decA dest jump
  | .addDA => .addDA dest jump
  | .subDA => .subDA dest jump
  | .subAD => .subAD dest jump
  | .andDA => .andDA dest jump
  | .orDA => .orDA dest jump
  | .memM => .memM dest jump
  | .notM => .notM dest jump
  | .negM => .negM dest jump
  | .incM => .incM dest jump
  | .decM => .decM dest jump
  | .addDM => .addDM dest jump
  | .subDM => .subDM dest jump
  | .subMD => .subMD dest jump
  | .andDM => .andDM dest jump
  | .orDM => .orDM dest jump

/-- The instruction that has the given fields. -/
def Form.instr : Form → Instr
  | .address value => .addr value
  | .compute comp dest jump => comp.instr dest jump

/-- The text of a symbol, a label or a token: its characters. -/
abbrev Text := List Char

/-- The operand of an `@` line (30_encoding.md R132): a decimal literal or a symbol. -/
inductive AsmOperand where
  | literal (n : Nat)
  | symbol (name : Text)
  deriving DecidableEq, Repr

/-- A cleaned, non-blank line of assembly source (30_encoding.md R123, R132, R136). -/
inductive AsmLine where
  | label (name : Text)
  | address (operand : AsmOperand)
  | compute (comp : Comp) (dest : Dest) (jump : Jump)
  deriving DecidableEq, Repr

end Sys2Proof
end

