-- ==== Sys2Proof/WellFormed.lean ====
section
/-! DEFINITION. What well-formed means, before anything is decoded or assembled: an instruction word (the classes of
30_encoding.md R103), the operand and the label of an assembly line, and a program image. A term of `Instr` needs no
check of its own: the types of its fields hold exactly the legal values (R92, R97, R98). -/

namespace Sys2Proof

/-- The word is an address instruction: bit 15 is 0 (30_encoding.md R91, R92). -/
def Word.isAddress (w : Word) : Bool := !w.getLsbD 15

/-- The padding of a compute word: bits 14 and 13 are `11` (30_encoding.md R93, R96, R104). -/
def Word.paddingOk (w : Word) : Bool := w.getLsbD 14 && w.getLsbD 13

/-- The legal comp codes as decimal numbers, as the last sentence of 30_encoding.md R100 lists them (PRESUMED, log 1:
the spec marks the numbers as general knowledge). -/
def legalCompCodes : List Nat :=
  [0, 2, 7, 12, 13, 14, 15, 19, 21, 31, 42, 48, 49, 50, 51, 55, 58, 63] ++
  [64, 66, 71, 83, 85, 112, 113, 114, 115, 119]

/-- The comp code, bits 12 to 6, is one of the 28 legal ones (30_encoding.md R99, R105). -/
def Word.compOk (w : Word) : Bool := legalCompCodes.contains ((w.toNat / 64) % 128)

/-- The word is an instruction: an address instruction, or a compute instruction with the right padding and a legal
comp code (30_encoding.md R103, the first two classes). -/
def Word.wellFormed (w : Word) : Bool := w.isAddress || (w.paddingOk && w.compOk)

/-- A decimal digit. -/
def isDigit (c : Char) : Bool := 48 ≤ c.toNat && c.toNat ≤ 57

/-- The operand of an `@` line: a literal of at most 65535 (92_eei_decisions.md D11), or a symbol that is not empty
(30_encoding.md R135) and does not begin with a digit (R132, D13, D21). -/
def AsmOperand.wellFormed : AsmOperand → Bool
  | .literal n => n ≤ 65535
  | .symbol [] => false
  | .symbol (c :: _) => !isDigit c

/-- A line of source: a label has a name (30_encoding.md R125, D12), an address line a well-formed operand; a compute
line is well formed by its type. -/
def AsmLine.wellFormed : AsmLine → Bool
  | .label name => !name.isEmpty
  | .address operand => operand.wellFormed
  | .compute _ _ _ => true

/-- A binary image: an even number of bytes, at most 65536 (60_exceptions.md R276). -/
def imageWellFormed (bytes : List Byte) : Bool :=
  bytes.length % 2 == 0 && bytes.length ≤ Config.imageMaxBytes

end Sys2Proof
end

