-- ==== Sys2Proof/Decode.lean ====
section
/-! DEFINITION. The decoder, total on every 16-bit word and rejecting by name, and after it the encoder, both over the
one table of computation codes (30_encoding.md R100, R108 to R112); the byte order of the image; the host's
`decodeTableWord`. -/

namespace Sys2Proof

/-- `COMP_TABLE`: the comp code (instruction bits 12 to 6, the selector `a` and then the opcode `c`) of each
computation, 30_encoding.md R100. PRESUMED (log 1): the spec marks the numbers as general knowledge. -/
def Comp.code : Comp → BitVec 7
  | .zero => 0b0101010#7
  | .one => 0b0111111#7
  | .negOne => 0b0111010#7
  | .regD => 0b0001100#7
  | .regA => 0b0110000#7
  | .notD => 0b0001101#7
  | .notA => 0b0110001#7
  | .negD => 0b0001111#7
  | .negA => 0b0110011#7
  | .incD => 0b0011111#7
  | .incA => 0b0110111#7
  | .decD => 0b0001110#7
  | .decA => 0b0110010#7
  | .addDA => 0b0000010#7
  | .subDA => 0b0010011#7
  | .subAD => 0b0000111#7
  | .andDA => 0b0000000#7
  | .orDA => 0b0010101#7
  | .memM => 0b1110000#7
  | .notM => 0b1110001#7
  | .negM => 0b1110011#7
  | .incM => 0b1110111#7
  | .decM => 0b1110010#7
  | .addDM => 0b1000010#7
  | .subDM => 0b1010011#7
  | .subMD => 0b1000111#7
  | .andDM => 0b1000000#7
  | .orDM => 0b1010101#7

/-- The operand source selector `a` of a computation, the top bit of its code: `true` when the second operand is the
memory word at `A` (30_encoding.md R95, R99). -/
def Comp.selector (c : Comp) : Bool := c.code.getLsbD 6

/-- Look a 7-bit code up in the table of 28 entries (30_encoding.md R99, R105). -/
def compOfCode (code : BitVec 7) : Option Comp := Comp.all.find? (fun c => c.code == code)

/-- The three bits of a destination mask, `A` first (30_encoding.md R97). -/
def Dest.mask (dest : Dest) : BitVec 3 :=
  BitVec.ofBool dest.a ++ BitVec.ofBool dest.d ++ BitVec.ofBool dest.m

/-- The destination mask that has the given bits (30_encoding.md R97). -/
def Dest.ofMask (b : BitVec 3) : Dest := ⟨b.getLsbD 2, b.getLsbD 1, b.getLsbD 0⟩

/-- The three bits of a jump mask, negative first (30_encoding.md R98). -/
def Jump.mask (jump : Jump) : BitVec 3 :=
  BitVec.ofBool jump.neg ++ BitVec.ofBool jump.zero ++ BitVec.ofBool jump.pos

/-- The jump mask that has the given bits (30_encoding.md R98). -/
def Jump.ofMask (b : BitVec 3) : Jump := ⟨b.getLsbD 2, b.getLsbD 1, b.getLsbD 0⟩

/-- Why a word is no instruction (30_encoding.md R104, R105). -/
inductive DecodeError where
  | badPadding
  | invalidComputation
  deriving DecidableEq, Repr

/-- The decoder, 30_encoding.md R108: bit 15 first, then the padding, then the table. -/
def decode (w : Word) : Except DecodeError Instr :=
  if w.getLsbD 15 = false then .ok (.addr (w.extractLsb' 0 15))
  else if w.extractLsb' 13 2 ≠ 0b11#2 then .error .badPadding
  else
    match compOfCode (w.extractLsb' 6 7) with
    | none => .error .invalidComputation
    | some c => .ok (c.instr (Dest.ofMask (w.extractLsb' 3 3)) (Jump.ofMask (w.extractLsb' 0 3)))

/-- The word of two bytes of the binary image, big-endian (20_memory.md R60). -/
def wordOfBytes (hi lo : Byte) : Word := hi ++ lo

/-- The two bytes of a word in the binary image, big-endian (20_memory.md R60). -/
def bytesOfWord (w : Word) : List Byte := [w.extractLsb' 8 8, w.extractLsb' 0 8]

/-- The instruction at the front of a binary image, and the bytes after it; no instruction where fewer than two bytes
are left (20_memory.md R60, 30_encoding.md R90). -/
def decodeBytes : List Byte → Option (Except DecodeError Instr × List Byte)
  | hi :: lo :: rest => some (decode (wordOfBytes hi lo), rest)
  | _ => none

/-- `EncodeA(n)`, the word `n mod 32768` (30_encoding.md R109). -/
def encodeA (n : Nat) : Word := BitVec.ofNat 16 (n % 32768)

/-- `EncodeC(dest, comp, jump)`, `111`, the comp code, the destination mask, the jump mask (30_encoding.md R110). -/
def encodeC (dest : Dest) (comp : Comp) (jump : Jump) : Word :=
  0b111#3 ++ comp.code ++ dest.mask ++ jump.mask

/-- The word of an instruction (30_encoding.md R109, R110). -/
def encode (i : Instr) : Word :=
  match i.form with
  | .address value => encodeA value.toNat
  | .compute comp dest jump => encodeC dest comp jump

/-- For the host: the instruction the decoder reads from the table's numbering of the bits. An instruction is one
word, so its bit numbering is the word's own (30_encoding.md R90). -/
def decodeTableWord (nbits w : Nat) : Option Instr := (decode (BitVec.ofNat 16 (w % 2 ^ nbits))).toOption

end Sys2Proof
end

