-- ==== Sys2Proof/Machine/Params.lean ====
section
/-! DEFINITION. The values this model gives to the parameters the spec leaves open (00_scope.md R6, the list at the end
of 92_eei_decisions.md). `COMP_TABLE` stands in Decode.lean; `RESET_D`, `RESET_A`, `RAM_INIT` and the image are also
arguments of `launch` (Machine/Loader.lean), which starts the machine from any of their values. -/

namespace Sys2Proof.Machine.Params

/-- `RESET_PC`: execution starts at ROM address 0 (70_reset_and_hazards.md R310, D2). -/
def resetPc : Word := 0

/-- `RESET_D` in `State.reset`. DESIGN CHOICE (log 4), unsafe: 70_reset_and_hazards.md R311 gives no value. -/
def resetD : Word := 0

/-- `RESET_A` in `State.reset`. DESIGN CHOICE (log 4), unsafe: 70_reset_and_hazards.md R312 gives no value. -/
def resetA : Word := 0

/-- What a data-memory word that nothing has written reads as (`RAM_INIT`). DESIGN CHOICE (log 5), unsafe:
70_reset_and_hazards.md R313 gives zero as the default of the test vectors only; R314 gives 0 for the keyboard. -/
def ramFill : Word := 0

/-- `ROM_FILL`: `none`, so that a fetch past the loaded image is a fault (70_reset_and_hazards.md R317, D7; log 3),
safe; `some w` would make every unloaded word read as `w`. -/
def romFill : Option Word := none

/-- `M_ADDR_SEL`: the memory write of an instruction that also writes `A` goes to the old `A`
(41_compute_instruction.md R178, D6). DESIGN CHOICE of the spec (log 2), unsafe for `AM=` and `AMD=`. -/
def mAddrSel : Config.MAddrSel := .pre

end Sys2Proof.Machine.Params
end

