-- ==== Sys2Proof/Machine/State.lean ====
section
/-! DEFINITION. The state of the machine (10_state.md), the reasons a step can stop, and the state after reset. -/

namespace Sys2Proof.Machine

/-- One word of a store at its word address. The spec's smallest addressable unit is the 16-bit word; the machine has
no bytes (20_memory.md R59). DESIGN CHOICE (log 6), safe. -/
abbrev WordCell := Nat × Word

/-- A store: the words it lists, in one canonical form, addresses strictly rising. -/
abbrev Store := List WordCell

/-- `CpuOutput`, what the CPU hands to its caller at the end of `execute` (10_state.md R32, R33;
41_compute_instruction.md R182). -/
structure CpuOutput where
  writePending  : Bool
  aluResult     : Word
  targetAddress : Word
  deriving DecidableEq, Repr

/-- One notification of the screen sink, `present(scanline_word, address)` (20_memory.md R66). -/
structure ScreenEvent where
  scanlineWord : Word
  address      : Word
  deriving DecidableEq, Repr

/-- Which of the two data-memory operations failed (60_exceptions.md R273, R274). -/
inductive Access where
  | read
  | write
  deriving DecidableEq, Repr

/-- The faults of the machine: each ends the run (60_exceptions.md R270). `pc` is the program counter of the
instruction that could not execute (R280, R282; for the failing store D17, log 11). -/
inductive Fault where
  /-- `RomRange`: the fetch with `PC` of 32768 or more (60_exceptions.md R271). Raised by `step`; safe. -/
  | romRange (pc : Word)
  /-- The fetch of a ROM word past the loaded image (70_reset_and_hazards.md R317, D7, log 3). Raised by `step`; safe:
  the hardware goes on with whatever its ROM holds there. -/
  | romUnloaded (pc : Word)
  /-- `BadPadding`: bit 15 is 1 and bits 14 and 13 are not `11` (60_exceptions.md R272). Raised by `step`; safe. -/
  | badPadding (pc w : Word)
  /-- `AddressRange`: a data access at 24577 or above (60_exceptions.md R273, R274). Raised by the meanings of the
  compute instructions, and by `step` for a word whose computation is invalid after its operand fetch failed; safe. -/
  | addressRange (access : Access) (pc addr : Word)
  /-- `InvalidComputation`: the comp code is not one of the 28 (60_exceptions.md R275). Raised by `step`; safe. -/
  | invalidComputation (pc w : Word)
  /-- `ImageLoad`: a binary image of odd or too great length (60_exceptions.md R276). Raised by `loadImage`, before
  any step; safe. What it records is "not stated" in R276 and R280: that the model records the length of the image in
  bytes is its own choice. DESIGN CHOICE (log 23). -/
  | imageLoad (bytes : Nat)
  deriving DecidableEq, Repr

/-- What the model refuses. -/
inductive Refusal where
  /-- An instruction that has no meaning in the model. Raised by an arm of `exec` only; no arm of this model does; safe. -/
  | notModelled (mnemonic : String)
  deriving DecidableEq, Repr

/-- The state. The first six fields are the spec's (10_state.md R20, R32); the last two are the model's own and hold
what passes between the machine and the outside (60_exceptions.md R300). -/
structure State where
  /-- `D`, the data register (10_state.md R21). -/
  d : Word
  /-- `A`, the address register (10_state.md R22). -/
  a : Word
  /-- `PC`, the ROM word address of the next instruction (10_state.md R24, R25). -/
  pc : Word
  /-- The instruction ROM: the loaded words (10_state.md R29). An address that is not listed is not loaded (log 3). -/
  rom : Store
  /-- The data memory, screen and keyboard words included (10_state.md R30, R31). An address that is not listed holds
  `Params.ramFill` (log 5). -/
  mem : Store
  /-- The output of `execute` that the caller has not consumed yet (10_state.md R32). -/
  output : Option CpuOutput
  /-- MODEL'S OWN (log 9): the notifications given to the screen sink so far, oldest first. Nothing reads it. -/
  screen : List ScreenEvent
  /-- MODEL'S OWN (log 8): the host's keyboard writes still to come. The head lists the codes the host writes, in
  order, before the next instruction step; when the list is empty the host writes nothing (20_memory.md R68). -/
  keys : List (List Word)
  deriving DecidableEq, Repr

/-- The machine when the first instruction is about to be fetched, no image loaded (10_state.md R35, log 12). -/
def State.reset : State where
  d := Params.resetD
  a := Params.resetA
  pc := Params.resetPc
  rom := []
  mem := []
  output := none
  screen := []
  keys := []

end Sys2Proof.Machine
end

