-- ==== Sys2Proof/Machine/Ops.lean ====
section
/-! DEFINITION. The named operations over the stores and the registers. There is no operation that takes an exception:
the machine has no trap entry and no trap return (60_exceptions.md R285, R286); a fault is a terminal answer. -/

namespace Sys2Proof.Machine

/-- The word a store lists at an address. -/
def Store.lookup : Store → Nat → Option Word
  | [], _ => none
  | (k, v) :: rest, addr => if k = addr then some v else Store.lookup rest addr

/-- List a word at an address, in place of the one listed there if any, addresses rising. -/
def Store.insert (addr : Nat) (w : Word) : Store → Store
  | [] => [(addr, w)]
  | (k, v) :: rest =>
    if addr < k then (addr, w) :: (k, v) :: rest
    else if addr = k then (addr, w) :: rest
    else (k, v) :: Store.insert addr w rest

/-- List no word at an address. -/
def Store.erase (addr : Nat) (m : Store) : Store := m.filter (fun c => c.1 != addr)

/-- The addresses rise strictly. -/
def Store.rising : Store → Bool
  | [] => true
  | [_] => true
  | (k, _) :: (k', v') :: rest => decide (k < k') && Store.rising ((k', v') :: rest)

/-- The word of the data memory at an address: the listed one, else `Params.ramFill` (10_state.md R30). -/
def Memory.read (m : Store) (addr : Nat) : Word := (Store.lookup m addr).getD Params.ramFill

/-- Replace the word at an address, keeping the canonical form (00_scope.md R11). -/
def Memory.write (m : Store) (addr : Nat) (w : Word) : Store :=
  if w = Params.ramFill then Store.erase addr m else Store.insert addr w m

/-- The canonical form of the data memory: addresses strictly rising, all below 24577, no entry equal to what an
unlisted address reads as. -/
def Memory.wf (m : Store) : Bool :=
  Store.rising m && m.all (fun c => decide (c.1 < Config.totalSize) && c.2 != Params.ramFill)

/-- The canonical form of the ROM: addresses strictly rising, all below 32768. -/
def Rom.wf (m : Store) : Bool := Store.rising m && m.all (fun c => decide (c.1 < Config.romSize))

/-- `RomRead(pc)` of the fetch (20_memory.md R52): outside the ROM `RomRange`; a word that is not loaded reads as
`ROM_FILL`, or faults where the model has none (70_reset_and_hazards.md R317). -/
def State.romRead (s : State) (pc : Word) : Except Fault Word :=
  if Config.romSize ≤ pc.toNat then .error (.romRange pc)
  else
    match Store.lookup s.rom pc.toNat with
    | some w => .ok w
    | none =>
      match Params.romFill with
      | some w => .ok w
      | none => .error (.romUnloaded pc)

/-- `MemRead(addr, 1)` (20_memory.md R56). `pc` is recorded by the fault. -/
def State.memRead (s : State) (pc addr : Word) : Except Fault Word :=
  if Config.totalSize ≤ addr.toNat then .error (.addressRange .read pc addr)
  else .ok (Memory.read s.mem addr.toNat)

/-- `MemWrite(addr, 1, w)` (20_memory.md R56). `pc` is recorded by the fault. -/
def State.memWrite (s : State) (pc addr w : Word) : Except Fault State :=
  if Config.totalSize ≤ addr.toNat then .error (.addressRange .write pc addr)
  else .ok { s with mem := Memory.write s.mem addr.toNat w }

/-- `is_screen_address` (20_memory.md R65). -/
def isScreenAddress (addr : Word) : Bool :=
  decide (Config.screenBase ≤ addr.toNat) && decide (addr.toNat < Config.screenBase + Config.screenWords)

/-- Give the screen sink a notification (20_memory.md R66). -/
def State.present (s : State) (w addr : Word) : State := { s with screen := s.screen ++ [⟨w, addr⟩] }

/-- The pixel at horizontal offset `i` of the screen word at `addr` is lit: bit `i` of the stored word
(20_memory.md R66). -/
def State.pixelLit (s : State) (addr i : Nat) : Bool := (Memory.read s.mem addr).getLsbD i

/-- Write `A` (10_state.md R10). -/
def State.setA (s : State) (w : Word) : State := { s with a := w }

/-- Write `D` (10_state.md R10). -/
def State.setD (s : State) (w : Word) : State := { s with d := w }

/-- Write `PC` (10_state.md R10). -/
def State.setPc (s : State) (w : Word) : State := { s with pc := w }

/-- Leave an output for the caller, or none (10_state.md R32). -/
def State.setOutput (s : State) (o : Option CpuOutput) : State := { s with output := o }

/-- The address of the memory write from the old and the new value of `A` (41_compute_instruction.md R178). -/
def targetAddress (aOld aNew : Word) : Word :=
  match Params.mAddrSel with
  | .pre => aOld
  | .post => aNew

/-- The register writes of a compute instruction with result `r`: `D` and `A` by the mask
(41_compute_instruction.md R176, 43_destinations_and_jumps.md R248). -/
def State.writeRegs (s : State) (dest : Dest) (r : Word) : State :=
  (if dest.d then s.setD r else s).setA (if dest.a then r else s.a)

/-- The caller's part, phase 5 (41_compute_instruction.md R183, R184): apply the pending write, notify the screen sink
of a write in the screen region, and consume the output. `pc` is that of the instruction (log 11). -/
def State.applyOutput (s : State) (pc : Word) : Except Fault State :=
  match s.output with
  | none => .ok s
  | some o =>
    if o.writePending then
      match (s.setOutput none).memWrite pc o.targetAddress o.aluResult with
      | .error f => .error f
      | .ok t => .ok (if isScreenAddress o.targetAddress then t.present o.aluResult o.targetAddress else t)
    else .ok (s.setOutput none)

/-- The fault of a fetched word that is no instruction, in the order of 60_exceptions.md R281: bad padding first; an
invalid computation after the operand fetch, which is made when the selector bit is 1 (30_encoding.md R105). -/
def State.decodeFault (s : State) (w : Word) : DecodeError → Fault
  | .badPadding => .badPadding s.pc w
  | .invalidComputation =>
    if w.getLsbD 12 then
      match s.memRead s.pc s.a with
      | .error f => f
      | .ok _ => .invalidComputation s.pc w
    else .invalidComputation s.pc w

/-- Fetch and decode (41_compute_instruction.md R171, R172, R174): the instruction at `PC`, or the first fault. -/
def State.fetch (s : State) : Except Fault Instr :=
  match s.romRead s.pc with
  | .error f => .error f
  | .ok w =>
    match decode w with
    | .error e => .error (s.decodeFault w e)
    | .ok i => .ok i

end Sys2Proof.Machine
end

