-- ==== Sys2Proof/Machine/Address.lean ====
section
/-! DEFINITION. The meaning of the address instruction (40_address_instruction.md). -/

namespace Sys2Proof.Machine

/-- `@value` (R160): `A` takes the zero-extended constant, `PC` advances. No write is pending, and the other values of
the interface, which the spec does not state and nothing reads, are left out (10_state.md R33, D9, log 10). -/
def execAddr (value : Addr15) (s : State) : Host.Outcome State Fault Refusal :=
  .next (((s.setA (value.setWidth 16)).setPc (s.pc + 1)).setOutput none)

end Sys2Proof.Machine
end

