-- ==== Sys2Proof/Machine/Alu.lean ====
section
/-! DEFINITION. The arithmetic primitives (00_scope.md R9) and the ALU (42_alu_computations.md). -/

namespace Sys2Proof.Machine

/-- `add16`: the sum modulo 65536 (R9). -/
def add16 (x y : Word) : Word := x + y

/-- `not16`: every bit inverted (R9). -/
def not16 (x : Word) : Word := ~~~x

/-- `and16`: bitwise (R9). -/
def and16 (x y : Word) : Word := x &&& y

/-- `or16`: bitwise (R9). -/
def or16 (x y : Word) : Word := x ||| y

/-- `neg16`: `!(x + 0xFFFF)` (R9). -/
def neg16 (x : Word) : Word := not16 (add16 x 0xFFFF)

/-- `sub16`: `x + neg16 y` (R9). -/
def sub16 (x y : Word) : Word := add16 x (neg16 y)

/-- The ALU: the result of a computation from `x = D` and the operand `y` (`A`, or the memory word at `A`), R200; the
rules R201 to R228 in order. It reads nothing else and has no other output (R200, R229). -/
def alu (c : Comp) (x y : Word) : Word :=
  match c with
  | .zero => 0 -- R201
  | .one => 1 -- R202
  | .negOne => 0xFFFF -- R203
  | .regD => x -- R204
  | .regA => y -- R205
  | .notD => not16 x -- R206
  | .notA => not16 y -- R207
  | .negD => neg16 x -- R208
  | .negA => neg16 y -- R209
  | .incD => add16 x 1 -- R210
  | .incA => add16 y 1 -- R211
  | .decD => add16 x 0xFFFF -- R212
  | .decA => add16 y 0xFFFF -- R213
  | .addDA => add16 x y -- R214
  | .subDA => sub16 x y -- R215
  | .subAD => sub16 y x -- R216
  | .andDA => and16 x y -- R217
  | .orDA => or16 x y -- R218
  | .memM => y -- R219
  | .notM => not16 y -- R220
  | .negM => neg16 y -- R221
  | .incM => add16 y 1 -- R222
  | .decM => add16 y 0xFFFF -- R223
  | .addDM => add16 x y -- R224
  | .subDM => sub16 x y -- R225
  | .subMD => sub16 y x -- R226
  | .andDM => and16 x y -- R227
  | .orDM => or16 x y -- R228

end Sys2Proof.Machine
end

