-- ==== Sys2Proof/Machine/Flags.lean ====
section
/-! DEFINITION. The two transient signals of the ALU result and the jump condition (41_compute_instruction.md R179,
R180). Nothing here is stored: the machine has no flag register (10_state.md R26). -/

namespace Sys2Proof.Machine

/-- `ng`: bit 15 of the ALU result (R179). -/
def signFlag (r : Word) : Bool := r.getLsbD 15

/-- `zr`: the ALU result is zero (R179). -/
def zeroFlag (r : Word) : Bool := r == 0

/-- Whether the jump is taken on the ALU result `r` (R180). -/
def taken (jump : Jump) (r : Word) : Bool :=
  (jump.pos && !signFlag r && !zeroFlag r) || (jump.zero && zeroFlag r) || (jump.neg && signFlag r)

end Sys2Proof.Machine
end

