-- ==== Sys2Proof/Machine/Operands.lean ====
section
/-! DEFINITION. The one operand form that varies, the second ALU input (30_encoding.md R95,
41_compute_instruction.md R173). -/

namespace Sys2Proof.Machine

/-- The operand `y`: `A` when the selector is 0, with no memory access and no range check; the memory word at `A` when
it is 1 (41_compute_instruction.md R173). -/
def State.operand (s : State) (selector : Bool) : Except Fault Word :=
  if selector then s.memRead s.pc s.a else .ok s.a

end Sys2Proof.Machine
end

