-- ==== Sys2Proof/Machine/Compute.lean ====
section
/-! DEFINITION. The common sequence of the compute instructions (41_compute_instruction.md R170, R185). -/

namespace Sys2Proof.Machine

/-- Phase 4 with result `r` (41_compute_instruction.md R176, R180, R181, R182): the register writes, the program
counter (a taken jump goes to the new `A`), and the output for the caller. -/
def State.commit (s : State) (dest : Dest) (jump : Jump) (r : Word) : State :=
  let t := s.writeRegs dest r
  (t.setPc (if taken jump r then t.a else s.pc + 1)).setOutput (some ⟨dest.m, r, targetAddress s.a t.a⟩)

/-- The CPU's `execute` of a compute instruction, phases 2 to 4: operand, ALU, commit (41_compute_instruction.md R173,
R174). -/
def State.executeCompute (s : State) (c : Comp) (dest : Dest) (jump : Jump) : Except Fault State :=
  match s.operand c.selector with
  | .error f => .error f
  | .ok y => .ok (s.commit dest jump (alu c s.d y))

/-- The whole compute instruction: the CPU's part, then the caller's (41_compute_instruction.md R185). -/
def compute (c : Comp) (dest : Dest) (jump : Jump) (s : State) : Host.Outcome State Fault Refusal :=
  match s.executeCompute c dest jump with
  | .error f => .fault f
  | .ok t =>
    match t.applyOutput s.pc with
    | .error f => .fault f
    | .ok u => .next u

end Sys2Proof.Machine
end

