-- ==== Sys2Proof/Machine/ComputeA.lean ====
section
/-! DEFINITION. The meanings of the compute instructions with selector 0, whose second operand is `A` (42_alu_computations.md section 2). Each
is the common sequence of 41_compute_instruction.md R185 with its own computation. -/

namespace Sys2Proof.Machine

/-- `[dest=]0[;jump]`, R201. -/
def execZero (dest : Dest) (jump : Jump) (s : State) : Host.Outcome State Fault Refusal := compute .zero dest jump s

/-- `[dest=]1[;jump]`, R202. -/
def execOne (dest : Dest) (jump : Jump) (s : State) : Host.Outcome State Fault Refusal := compute .one dest jump s

/-- `[dest=]-1[;jump]`, R203. -/
def execNegOne (dest : Dest) (jump : Jump) (s : State) : Host.Outcome State Fault Refusal := compute .negOne dest jump s

/-- `[dest=]D[;jump]`, R204. -/
def execRegD (dest : Dest) (jump : Jump) (s : State) : Host.Outcome State Fault Refusal := compute .regD dest jump s

/-- `[dest=]A[;jump]`, R205. -/
def execRegA (dest : Dest) (jump : Jump) (s : State) : Host.Outcome State Fault Refusal := compute .regA dest jump s

/-- `[dest=]!D[;jump]`, R206. -/
def execNotD (dest : Dest) (jump : Jump) (s : State) : Host.Outcome State Fault Refusal := compute .notD dest jump s

/-- `[dest=]!A[;jump]`, R207. -/
def execNotA (dest : Dest) (jump : Jump) (s : State) : Host.Outcome State Fault Refusal := compute .notA dest jump s

/-- `[dest=]-D[;jump]`, R208. -/
def execNegD (dest : Dest) (jump : Jump) (s : State) : Host.Outcome State Fault Refusal := compute .negD dest jump s

/-- `[dest=]-A[;jump]`, R209. -/
def execNegA (dest : Dest) (jump : Jump) (s : State) : Host.Outcome State Fault Refusal := compute .negA dest jump s

/-- `[dest=]D+1[;jump]`, R210. -/
def execIncD (dest : Dest) (jump : Jump) (s : State) : Host.Outcome State Fault Refusal := compute .incD dest jump s

/-- `[dest=]A+1[;jump]`, R211. -/
def execIncA (dest : Dest) (jump : Jump) (s : State) : Host.Outcome State Fault Refusal := compute .incA dest jump s

/-- `[dest=]D-1[;jump]`, R212. -/
def execDecD (dest : Dest) (jump : Jump) (s : State) : Host.Outcome State Fault Refusal := compute .decD dest jump s

/-- `[dest=]A-1[;jump]`, R213. -/
def execDecA (dest : Dest) (jump : Jump) (s : State) : Host.Outcome State Fault Refusal := compute .decA dest jump s

/-- `[dest=]D+A[;jump]`, R214. -/
def execAddDA (dest : Dest) (jump : Jump) (s : State) : Host.Outcome State Fault Refusal := compute .addDA dest jump s

/-- `[dest=]D-A[;jump]`, R215. -/
def execSubDA (dest : Dest) (jump : Jump) (s : State) : Host.Outcome State Fault Refusal := compute .subDA dest jump s

/-- `[dest=]A-D[;jump]`, R216. -/
def execSubAD (dest : Dest) (jump : Jump) (s : State) : Host.Outcome State Fault Refusal := compute .subAD dest jump s

/-- `[dest=]D&A[;jump]`, R217. -/
def execAndDA (dest : Dest) (jump : Jump) (s : State) : Host.Outcome State Fault Refusal := compute .andDA dest jump s

/-- `[dest=]D|A[;jump]`, R218. -/
def execOrDA (dest : Dest) (jump : Jump) (s : State) : Host.Outcome State Fault Refusal := compute .orDA dest jump s

end Sys2Proof.Machine
end

