-- ==== Sys2Proof/Machine/ComputeM.lean ====
section
/-! DEFINITION. The meanings of the compute instructions with selector 1, whose second operand is the memory word at `A` (42_alu_computations.md
section 3). Each
is the common sequence of 41_compute_instruction.md R185 with its own computation. -/

namespace Sys2Proof.Machine

/-- `[dest=]M[;jump]`, R219. -/
def execMemM (dest : Dest) (jump : Jump) (s : State) : Host.Outcome State Fault Refusal := compute .memM dest jump s

/-- `[dest=]!M[;jump]`, R220. -/
def execNotM (dest : Dest) (jump : Jump) (s : State) : Host.Outcome State Fault Refusal := compute .notM dest jump s

/-- `[dest=]-M[;jump]`, R221. -/
def execNegM (dest : Dest) (jump : Jump) (s : State) : Host.Outcome State Fault Refusal := compute .negM dest jump s

/-- `[dest=]M+1[;jump]`, R222. -/
def execIncM (dest : Dest) (jump : Jump) (s : State) : Host.Outcome State Fault Refusal := compute .incM dest jump s

/-- `[dest=]M-1[;jump]`, R223. -/
def execDecM (dest : Dest) (jump : Jump) (s : State) : Host.Outcome State Fault Refusal := compute .decM dest jump s

/-- `[dest=]D+M[;jump]`, R224. -/
def execAddDM (dest : Dest) (jump : Jump) (s : State) : Host.Outcome State Fault Refusal := compute .addDM dest jump s

/-- `[dest=]D-M[;jump]`, R225. -/
def execSubDM (dest : Dest) (jump : Jump) (s : State) : Host.Outcome State Fault Refusal := compute .subDM dest jump s

/-- `[dest=]M-D[;jump]`, R226. -/
def execSubMD (dest : Dest) (jump : Jump) (s : State) : Host.Outcome State Fault Refusal := compute .subMD dest jump s

/-- `[dest=]D&M[;jump]`, R227. -/
def execAndDM (dest : Dest) (jump : Jump) (s : State) : Host.Outcome State Fault Refusal := compute .andDM dest jump s

/-- `[dest=]D|M[;jump]`, R228. -/
def execOrDM (dest : Dest) (jump : Jump) (s : State) : Host.Outcome State Fault Refusal := compute .orDM dest jump s

end Sys2Proof.Machine
end

