-- ==== Sys2Proof/Machine/Dispatch.lean ====
section
/-! DEFINITION. One arm per instruction: a direct call of its meaning. -/

namespace Sys2Proof.Machine

def exec (i : Instr) (s : State) : Host.Outcome State Fault Refusal :=
  match i with
  | .addr value => Sys2Proof.Machine.execAddr value s
  | .zero dest jump => Sys2Proof.Machine.execZero dest jump s
  | .one dest jump => Sys2Proof.Machine.execOne dest jump s
  | .negOne dest jump => Sys2Proof.Machine.execNegOne dest jump s
  | .regD dest jump => Sys2Proof.Machine.execRegD dest jump s
  | .regA dest jump => Sys2Proof.Machine.execRegA dest jump s
  | .notD dest jump => Sys2Proof.Machine.execNotD dest jump s
  | .notA dest jump => Sys2Proof.Machine.execNotA dest jump s
  | .negD dest jump => Sys2Proof.Machine.execNegD dest jump s
  | .negA dest jump => Sys2Proof.Machine.execNegA dest jump s
  | .incD dest jump => Sys2Proof.Machine.execIncD dest jump s
  | .incA dest jump => Sys2Proof.Machine.execIncA dest jump s
  | .decD dest jump => Sys2Proof.Machine.execDecD dest jump s
  | .decA dest jump => Sys2Proof.Machine.execDecA dest jump s
  | .addDA dest jump => Sys2Proof.Machine.execAddDA dest jump s
  | .subDA dest jump => Sys2Proof.Machine.execSubDA dest jump s
  | .subAD dest jump => Sys2Proof.Machine.execSubAD dest jump s
  | .andDA dest jump => Sys2Proof.Machine.execAndDA dest jump s
  | .orDA dest jump => Sys2Proof.Machine.execOrDA dest jump s
  | .memM dest jump => Sys2Proof.Machine.execMemM dest jump s
  | .notM dest jump => Sys2Proof.Machine.execNotM dest jump s
  | .negM dest jump => Sys2Proof.Machine.execNegM dest jump s
  | .incM dest jump => Sys2Proof.Machine.execIncM dest jump s
  | .decM dest jump => Sys2Proof.Machine.execDecM dest jump s
  | .addDM dest jump => Sys2Proof.Machine.execAddDM dest jump s
  | .subDM dest jump => Sys2Proof.Machine.execSubDM dest jump s
  | .subMD dest jump => Sys2Proof.Machine.execSubMD dest jump s
  | .andDM dest jump => Sys2Proof.Machine.execAndDM dest jump s
  | .orDM dest jump => Sys2Proof.Machine.execOrDM dest jump s

end Sys2Proof.Machine
end

