-- ==== Sys2Proof/Machine/HostPort.lean ====
section
/-! DEFINITION. The host's keyboard writes (20_memory.md R68, 60_exceptions.md R300, R301). -/

namespace Sys2Proof.Machine

/-- `set_keyboard_reg(code)`: replace the keyboard word, without a range check and without a screen notification
(20_memory.md R68). Any 16-bit code is allowed (D10, log 13). -/
def State.setKeyboardReg (s : State) (code : Word) : State :=
  { s with mem := Memory.write s.mem Config.kbdAddr code }

/-- The codes the host writes before the next instruction step, in order. -/
def State.nextKeys (s : State) : List Word := s.keys.headD []

/-- What the host does between two instruction steps (20_memory.md R68, R79): the writes at the head of the input
tape, in order, so that the last one wins; the head is then used up. -/
def State.hostPhase (s : State) : State :=
  s.nextKeys.foldl State.setKeyboardReg { s with keys := s.keys.tail }

end Sys2Proof.Machine
end

