-- ==== Sys2Proof/Machine/Step.lean ====
section
/-! DEFINITION. One step: what the host does between two ticks, and then one whole instruction step
(00_scope.md R13, 41_compute_instruction.md R170, R185); and the host's `withFetchWord`. -/

namespace Sys2Proof.Machine

/-- One instruction step, without the host's part: fetch, decode, execute (41_compute_instruction.md R185). -/
def tick (s : State) : Host.Outcome State Fault Refusal :=
  match s.fetch with
  | .error f => .fault f
  | .ok i => exec i s

/-- One step: the host's keyboard writes, if its tape has any, and then one tick. -/
def step (s : State) : Host.Outcome State Fault Refusal := tick s.hostPhase

/-- For the host: the same state with a word stored in the ROM at `PC`, where the next step fetches. Where `PC` is
outside the ROM there is no such place, and the state is unchanged (log 12). -/
def State.withFetchWord (s : State) (nbits w : Nat) : State :=
  if s.pc.toNat < Config.romSize then
    { s with rom := Store.insert s.pc.toNat (BitVec.ofNat 16 (w % 2 ^ nbits)) s.rom }
  else s

end Sys2Proof.Machine
end

