-- ==== Sys2Proof/Machine/AsmSymbols.lean ====
section
/-! DEFINITION. The symbol table of the assembler (30_encoding.md R127 to R131) and its errors
(60_exceptions.md R277 to R279). It lives for one assembly and is no state of the machine (10_state.md R34). -/

namespace Sys2Proof.Asm

/-- Why an assembly fails; `line` counts the lines of the source text from 1 (log 14). -/
inductive AsmError where
  /-- `PreprocessError`: a line that begins with `(` and does not end with `)` (60_exceptions.md R277). -/
  | preprocess (line : Nat)
  /-- `AssembleError`: a bad mnemonic, an empty symbol, an empty label, an empty jump token, an operand that begins
  with a digit and is no number (60_exceptions.md R278). -/
  | assemble (line : Nat)
  /-- `SymbolTableError`: a variable name that is already in the table (60_exceptions.md R279). -/
  | symbolTable (name : Text)
  /-- The model's refusal of a literal above 65535 or of more than 16368 variables (D11, D20, log 15); safe. -/
  | outsideSpec (line : Nat)
  deriving DecidableEq, Repr

/-- The table: one namespace of names with their 15-bit addresses (30_encoding.md R127, R128; 00_scope.md R5
`ADDR_BITS`), and the variable counter (R129). -/
structure SymbolTable where
  entries : List (Text × Addr15)
  nextVar : Nat
  deriving DecidableEq, Repr

/-- The entries at construction (30_encoding.md R127). -/
def predefined : List (Text × Addr15) :=
  [(['R', '0'], 0), (['R', '1'], 1), (['R', '2'], 2), (['R', '3'], 3), (['R', '4'], 4), (['R', '5'], 5),
   (['R', '6'], 6), (['R', '7'], 7), (['R', '8'], 8), (['R', '9'], 9), (['R', '1', '0'], 10),
   (['R', '1', '1'], 11)] ++
  [(['R', '1', '2'], 12), (['R', '1', '3'], 13), (['R', '1', '4'], 14), (['R', '1', '5'], 15),
   (['S', 'P'], 0), (['L', 'C', 'L'], 1), (['A', 'R', 'G'], 2), (['T', 'H', 'I', 'S'], 3),
   (['T', 'H', 'A', 'T'], 4), (['S', 'C', 'R', 'E', 'E', 'N'], 16384), (['K', 'B', 'D'], 24576)]

/-- The table at construction: the predefined names, and the first variable address (30_encoding.md R127, R129). -/
def SymbolTable.initial : SymbolTable := ⟨predefined, Config.varBase⟩

/-- The address of a name (30_encoding.md R131). -/
def SymbolTable.lookup (t : SymbolTable) (name : Text) : Option Addr15 :=
  (t.entries.find? (fun e => e.1 == name)).map Prod.snd

/-- Bind a label to an instruction index, overwriting silently any entry of that name (30_encoding.md R128). The table
keeps the index modulo 32768, which is all that `EncodeA` takes of it (R109, R127; DEDUCED, log 21). -/
def SymbolTable.setLabel (t : SymbolTable) (name : Text) (index : Nat) : SymbolTable :=
  { t with entries := (name, BitVec.ofNat 15 index) :: t.entries.filter (fun e => e.1 != name) }

/-- Allocate a variable: it gets the next address from 16 up (30_encoding.md R129). A name already in the table is
`SymbolTableError` (R130); the variable that would get 16384 is outside the model (D20, log 15). -/
def SymbolTable.addVariable (t : SymbolTable) (line : Nat) (name : Text) : Except AsmError (Addr15 × SymbolTable) :=
  match t.lookup name with
  | some _ => .error (.symbolTable name)
  | none =>
    if Config.screenBase ≤ t.nextVar then .error (.outsideSpec line)
    else
      let addr := BitVec.ofNat 15 t.nextVar
      .ok (addr, { entries := (name, addr) :: t.entries, nextVar := t.nextVar + 1 })

/-- The address of a symbol: the table's, else that of a new variable (30_encoding.md R134). -/
def SymbolTable.resolve (t : SymbolTable) (line : Nat) (name : Text) : Except AsmError (Addr15 × SymbolTable) :=
  match t.lookup name with
  | some addr => .ok (addr, t)
  | none => t.addVariable line name

end Sys2Proof.Asm
end

