-- ==== Sys2Proof/Machine/AsmTokens.lean ====
section
/-! DEFINITION. The tokens of the assembly language: mnemonics of the computations, destinations and jumps
(30_encoding.md R100 to R102, R137 to R139), decimal literals (R132), and the printing of an instruction (R146). -/

namespace Sys2Proof.Asm

/-- The mnemonic of a computation (30_encoding.md R100, R138). -/
def compToken : Comp → Text
  | .zero => ['0']
  | .one => ['1']
  | .negOne => ['-', '1']
  | .regD => ['D']
  | .regA => ['A']
  | .notD => ['!', 'D']
  | .notA => ['!', 'A']
  | .negD => ['-', 'D']
  | .negA => ['-', 'A']
  | .incD => ['D', '+', '1']
  | .incA => ['A', '+', '1']
  | .decD => ['D', '-', '1']
  | .decA => ['A', '-', '1']
  | .addDA => ['D', '+', 'A']
  | .subDA => ['D', '-', 'A']
  | .subAD => ['A', '-', 'D']
  | .andDA => ['D', '&', 'A']
  | .orDA => ['D', '|', 'A']
  | .memM => ['M']
  | .notM => ['!', 'M']
  | .negM => ['-', 'M']
  | .incM => ['M', '+', '1']
  | .decM => ['M', '-', '1']
  | .addDM => ['D', '+', 'M']
  | .subDM => ['D', '-', 'M']
  | .subMD => ['M', '-', 'D']
  | .andDM => ['D', '&', 'M']
  | .orDM => ['D', '|', 'M']

/-- The computation a token names; the token must be spelled exactly (30_encoding.md R138). -/
def compOfToken (t : Text) : Option Comp := Comp.all.find? (fun c => compToken c == t)

/-- The seven destination mnemonics and their masks (30_encoding.md R101). -/
def destTokens : List (Text × Dest) :=
  [(['M'], ⟨false, false, true⟩), (['D'], ⟨false, true, false⟩), (['M', 'D'], ⟨false, true, true⟩),
   (['A'], ⟨true, false, false⟩), (['A', 'M'], ⟨true, false, true⟩), (['A', 'D'], ⟨true, true, false⟩),
   (['A', 'M', 'D'], ⟨true, true, true⟩)]

/-- The seven jump mnemonics and their masks (30_encoding.md R102; the reading of the letters is log 19). -/
def jumpTokens : List (Text × Jump) :=
  [(['J', 'G', 'T'], ⟨false, false, true⟩), (['J', 'E', 'Q'], ⟨false, true, false⟩),
   (['J', 'G', 'E'], ⟨false, true, true⟩), (['J', 'L', 'T'], ⟨true, false, false⟩),
   (['J', 'N', 'E'], ⟨true, false, true⟩), (['J', 'L', 'E'], ⟨true, true, false⟩),
   (['J', 'M', 'P'], ⟨true, true, true⟩)]

/-- The mask of a destination token: absent means `000`, any token but the seven fails (30_encoding.md R137). -/
def destOfToken : Option Text → Option Dest
  | none => some ⟨false, false, false⟩
  | some t => (destTokens.find? (fun row => row.1 == t)).map Prod.snd

/-- The mask of a jump token: absent means `000`, any token but the seven fails (30_encoding.md R139). -/
def jumpOfToken : Option Text → Option Jump
  | none => some ⟨false, false, false⟩
  | some t => (jumpTokens.find? (fun row => row.1 == t)).map Prod.snd

/-- The token of a destination mask, if it has one (30_encoding.md R101). -/
def destToken (dest : Dest) : Option Text := (destTokens.find? (fun row => row.2 == dest)).map Prod.fst

/-- The token of a jump mask, if it has one (30_encoding.md R102). -/
def jumpToken (jump : Jump) : Option Text := (jumpTokens.find? (fun row => row.2 == jump)).map Prod.fst

/-- The number a string of decimal digits stands for, base 10 (30_encoding.md R132). -/
def decimalValue (t : Text) : Nat := t.foldl (fun n c => n * 10 + (c.toNat - 48)) 0

/-- The decimal digits of a number below `10 ^ fuel`, at least one digit. -/
def digitsOf : Nat → Nat → Text
  | 0, _ => []
  | fuel + 1, n => (if n < 10 then [] else digitsOf fuel (n / 10)) ++ [Char.ofNat (48 + n % 10)]

/-- The canonical spelling of an instruction: `@n` in decimal, `dest=comp;jump` with absent parts left out
(30_encoding.md R146, D14, log 20). -/
def printInstr (i : Instr) : Text :=
  match i.form with
  | .address value => '@' :: digitsOf 5 value.toNat
  | .compute comp dest jump =>
    (match destToken dest with
      | none => []
      | some t => t ++ ['=']) ++
    compToken comp ++
    (match jumpToken jump with
      | none => []
      | some t => ';' :: t)

end Sys2Proof.Asm
end

