-- ==== Sys2Proof/Machine/Assembler.lean ====
section
/-! DEFINITION. The assembler: cleaning, the preprocessor, the parser of a line, the encoder, the two passes, and the
two serialised forms of the image (30_encoding.md R109, R110, R120 to R144). -/

namespace Sys2Proof.Asm

/-- The lines of a text (30_encoding.md R120). -/
def splitLines : Text → List Text
  | [] => [[]]
  | c :: rest =>
    match splitLines rest with
    | [] => [[c]]
    | line :: lines => if c = '\n' then [] :: line :: lines else (c :: line) :: lines

/-- The text before the first `//` (30_encoding.md R121). -/
def stripComment : Text → Text
  | [] => []
  | [c] => [c]
  | c :: c' :: rest => if c = '/' ∧ c' = '/' then [] else c :: stripComment (c' :: rest)

/-- A character that cleaning deletes: space, tab, carriage return (30_encoding.md R121). -/
def isBlank (c : Char) : Bool := c == ' ' || c == '\t' || c == '\r'

/-- The cleaned line: the comment dropped, then every blank deleted (30_encoding.md R121; the order is log 14). -/
def clean (line : Text) : Text := (stripComment line).filter (fun c => !isBlank c)

/-- Split at the first occurrence of a character, which is dropped. -/
def splitAtFirst (sep : Char) : Text → Option (Text × Text)
  | [] => none
  | c :: rest =>
    if c = sep then some ([], rest)
    else
      match splitAtFirst sep rest with
      | none => none
      | some (before, after) => some (c :: before, after)

/-- The operand of an `@` line (30_encoding.md R132): only digits is a literal; a name does not begin with a digit; no
operand mixes a leading digit with a non-digit (D13). -/
def parseOperand : Text → Option AsmOperand
  | [] => some (.symbol [])
  | c :: rest =>
    if isDigit c then
      if rest.all isDigit then some (.literal (decimalValue (c :: rest))) else none
    else some (.symbol (c :: rest))

/-- A compute line `[dest=]comp[;jump]` (30_encoding.md R136 to R139). -/
def parseCompute (line : Text) : Option (Comp × Dest × Jump) :=
  let (destText, rest) : Option Text × Text :=
    match splitAtFirst '=' line with
    | some (before, after) => (some before, after)
    | none => (none, line)
  let (compText, jumpText) : Text × Option Text :=
    match splitAtFirst ';' rest with
    | some (before, after) => (before, some after)
    | none => (rest, none)
  match destOfToken destText, compOfToken compText, jumpOfToken jumpText with
  | some dest, some comp, some jump => some (comp, dest, jump)
  | _, _, _ => none

/-- A cleaned line that is not blank. A line that begins with `(` must end with `)` (30_encoding.md R123, R125); the
label is the text between them. -/
def parseLine (n : Nat) : Text → Except AsmError AsmLine
  | '(' :: body =>
    match body.reverse with
    | ')' :: name => .ok (.label name.reverse)
    | _ => .error (.preprocess n)
  | '@' :: operand =>
    match parseOperand operand with
    | some o => .ok (.address o)
    | none => .error (.assemble n)
  | line =>
    match parseCompute line with
    | some (comp, dest, jump) => .ok (.compute comp dest jump)
    | none => .error (.assemble n)

/-- The preprocessor, from source line `n` with `k` instruction lines emitted so far (30_encoding.md R122 to R124): the
emitted lines with their source line numbers, and the table with every label bound. An empty label is refused here, in
the first pass, ahead of every error of the second, also of one on an earlier line: neither R125 nor 60_exceptions.md
R278, R280 says in which pass (DESIGN CHOICE, log 22). -/
def preprocessFrom (n k : Nat) (t : SymbolTable) : List Text → Except AsmError (List (Nat × Text) × SymbolTable)
  | [] => .ok ([], t)
  | raw :: rest =>
    match clean raw with
    | [] => preprocessFrom (n + 1) k t rest
    | '(' :: body =>
      match parseLine n ('(' :: body) with
      | .error e => .error e
      | .ok (.label []) => .error (.assemble n)
      | .ok (.label name) => preprocessFrom (n + 1) k (t.setLabel name k) rest
      | .ok _ => .error (.preprocess n)
    | line =>
      match preprocessFrom (n + 1) (k + 1) t rest with
      | .error e => .error e
      | .ok (lines, t') => .ok ((n, line) :: lines, t')

/-- The first pass over a whole text (30_encoding.md R126). -/
def preprocess (source : Text) : Except AsmError (List (Nat × Text) × SymbolTable) :=
  preprocessFrom 1 0 SymbolTable.initial (splitLines source)

/-- The word of one instruction line (30_encoding.md R133 to R140). A literal of 32768 to 65535 is reduced modulo 32768
(R133); one above is outside the model (D11). -/
def encodeLine (n : Nat) (t : SymbolTable) (line : Text) : Except AsmError (Word × SymbolTable) :=
  match parseLine n line with
  | .error e => .error e
  | .ok (.label _) => .error (.preprocess n)
  | .ok (.compute comp dest jump) => .ok (encodeC dest comp jump, t)
  | .ok (.address (.literal v)) =>
    if (AsmOperand.literal v).wellFormed then .ok (encodeA v, t) else .error (.outsideSpec n)
  | .ok (.address (.symbol name)) =>
    if (AsmOperand.symbol name).wellFormed then
      match t.resolve n name with
      | .error e => .error e
      | .ok (addr, t') => .ok (encodeA addr.toNat, t')
    else .error (.assemble n)

/-- The second pass: the words of the emitted lines in order (30_encoding.md R126, R134). -/
def encodeLines (t : SymbolTable) : List (Nat × Text) → Except AsmError (List Word × SymbolTable)
  | [] => .ok ([], t)
  | (n, line) :: rest =>
    match encodeLine n t line with
    | .error e => .error e
    | .ok (w, t') =>
      match encodeLines t' rest with
      | .error e => .error e
      | .ok (ws, t'') => .ok (w :: ws, t'')

/-- The assembler: the image of a source text, or the first error (30_encoding.md R126, R145). -/
def assemble (source : Text) : Except AsmError (List Word) :=
  match preprocess source with
  | .error e => .error e
  | .ok (lines, t) =>
    match encodeLines t lines with
    | .error e => .error e
    | .ok (ws, _) => .ok ws

/-- The secondary output: the emitted instruction lines (30_encoding.md R144). -/
def preprocessedText (source : Text) : Except AsmError (List Text) :=
  match preprocess source with
  | .error e => .error e
  | .ok (lines, _) => .ok (lines.map Prod.snd)

/-- The binary form of an image: two bytes a word, big-endian (30_encoding.md R143). -/
def binaryImage (ws : List Word) : List Byte := ws.flatMap bytesOfWord

/-- The 16 characters of a word, bit 15 first (30_encoding.md R142). -/
def bitText (w : Word) : Text :=
  [15, 14, 13, 12, 11, 10, 9, 8, 7, 6, 5, 4, 3, 2, 1, 0].map (fun i => if w.getLsbD i then '1' else '0')

/-- The text form of an image: the words' lines, a newline between two (30_encoding.md R142; no final one, log 16). -/
def textImage : List Word → Text
  | [] => []
  | [w] => bitText w
  | w :: rest => bitText w ++ '\n' :: textImage rest

end Sys2Proof.Asm
end

