-- ==== Sys2Proof/Machine/Loader.lean ====
section
/-! DEFINITION. Loading a binary image into the ROM, and the machine at the start of a run
(70_reset_and_hazards.md R310 to R317, 10_state.md R35). -/

namespace Sys2Proof.Machine

/-- The words of a binary image: big-endian pairs of bytes (70_reset_and_hazards.md R316). -/
def wordsOfImage : List Byte → List Word
  | hi :: lo :: rest => wordOfBytes hi lo :: wordsOfImage rest
  | _ => []

/-- The ROM that holds the given words from an address upward (70_reset_and_hazards.md R316). -/
def romFrom : Nat → List Word → Store
  | _, [] => []
  | addr, w :: rest => (addr, w) :: romFrom (addr + 1) rest

/-- Load a binary image: word `i` goes to ROM address `i`; an image of odd length or of more than 65536 bytes is
`ImageLoad` (70_reset_and_hazards.md R316, 60_exceptions.md R276); that the fault records the image's length is the
model's choice (DESIGN CHOICE, log 23). The ROM is built anew (R319). -/
def loadImage (bytes : List Byte) (s : State) : Except Fault State :=
  if imageWellFormed bytes then .ok { s with rom := romFrom 0 (wordsOfImage bytes) }
  else .error (.imageLoad bytes.length)

/-- The machine at the start of a run (10_state.md R35), from any value of the launch parameters: the image,
`RESET_D`, `RESET_A`, `RAM_INIT` and what the host will write to the keyboard register. -/
def launch (bytes : List Byte) (d a : Word) (ram : Store) (keys : List (List Word)) : Except Fault State :=
  loadImage bytes { State.reset with d := d, a := a, mem := ram, keys := keys }

end Sys2Proof.Machine
end

