-- ==== Sys2Proof/Safety.lean ====
section
/-! DEFINITION. What counts as a safe run, and the words in which the claims speak: the invariant of the machine, what a
completed compute instruction leaves, and the quiescent states. -/

namespace Sys2Proof.Machine

/-- The invariant: both stores are in canonical form, no output is left over (10_state.md R32), and the sink was only
ever told of screen addresses (20_memory.md R65). -/
structure State.Inv (s : State) : Prop where
  memWf    : Memory.wf s.mem = true
  romWf    : Rom.wf s.rom = true
  consumed : s.output = none
  screenOk : ∀ e ∈ s.screen, isScreenAddress e.address = true

/-- `k` steps without a fault; "no fault occurs" is something to prove of a program (60_exceptions.md R270). -/
def SafeFor (k : Nat) (s : State) : Prop := ∃ t, Sys2Proof.core.run k s = .next t

/-- The word at a data-memory address. -/
def State.word (s : State) (addr : Nat) : Word := Memory.read s.mem addr

/-- What a compute instruction with masks `dest` and `jump` and result `r` leaves when it completes from `s`
(41_compute_instruction.md R185), every part of the state named. The memory word it writes is the one at the OLD `A`
(R178, D6, log 2). -/
structure Committed (dest : Dest) (jump : Jump) (r : Word) (s t : State) : Prop where
  d      : t.d = if dest.d then r else s.d
  a      : t.a = if dest.a then r else s.a
  pc     : t.pc = if taken jump r then t.a else s.pc + 1
  rom    : t.rom = s.rom
  mem    : ∀ addr, t.word addr = if dest.m = true ∧ addr = s.a.toNat then r else s.word addr
  screen : t.screen =
    if dest.m = true ∧ 16384 ≤ s.a.toNat ∧ s.a.toNat ≤ 24575 then s.screen ++ [⟨r, s.a⟩] else s.screen
  output : t.output = none
  keys   : t.keys = s.keys

/-- A compute instruction's store, if it makes one, is in range (20_memory.md R56). -/
def StoreInRange (dest : Dest) (s : State) : Prop := dest.m = true → s.a.toNat ≤ 24576

/-- The instruction runs to a next state, which is what masks `dest` and `jump` and result `r` leave. -/
def CompletesWith (i : Instr) (dest : Dest) (jump : Jump) (r : Word) (s : State) : Prop :=
  ∃ t, exec i s = .next t ∧ Committed dest jump r s t

/-- The next fetch reads the word `w` from the ROM (20_memory.md R52). -/
def State.FetchesWord (s : State) (w : Word) : Prop :=
  s.pc.toNat ≤ 32767 ∧ Store.lookup s.rom s.pc.toNat = some w

/-- The data-memory address that an instruction stores to from `s`, if it has destination `M`
(41_compute_instruction.md R177, R178). -/
def State.storesAt (s : State) (i : Instr) : Option Nat :=
  match i.form with
  | .address _ => none
  | .compute _ dest _ => if dest.m then some s.a.toNat else none

/-- A state quiescent at `L` (70_reset_and_hazards.md R327): `@L` at `L`, `0;JMP` at `L + 1`, and `PC` at one of the
two, in the second case with `A = L`. -/
structure QuiescentAt (L : Nat) (s : State) : Prop where
  first  : Store.lookup s.rom L = some (encodeA L)
  second : Store.lookup s.rom (L + 1) = some 0xEA87
  inRom  : L + 1 < Config.romSize
  at_    : s.pc.toNat = L ∨ (s.pc.toNat = L + 1 ∧ s.a.toNat = L)

/-- The ROM holds the image: the bytes `2i` and `2i + 1` make word `i`, the first of them the high one, and no word is
loaded above the last pair (70_reset_and_hazards.md R316, 20_memory.md R60). -/
structure RomHoldsImage (bytes : List Byte) (rom : Store) : Prop where
  word  : ∀ (i : Nat) (hi lo : Byte), bytes[2 * i]? = some hi → bytes[2 * i + 1]? = some lo →
    ∃ w, Store.lookup rom i = some w ∧ w.toNat = hi.toNat * 256 + lo.toNat
  above : ∀ i : Nat, bytes.length ≤ 2 * i + 1 → Store.lookup rom i = none

/-- How many of the source lines are instruction lines: not blank after cleaning, and no label
(30_encoding.md R122 to R124). -/
def instructionLines (lines : List Text) : Nat :=
  (lines.filter (fun l => match Asm.clean l with
    | [] => false
    | c :: _ => c != '(')).length

/-- The source line declares the label (30_encoding.md R123). -/
def declaresLabel (name line : Text) : Bool := Asm.clean line == '(' :: name ++ [')']

end Sys2Proof.Machine
end

