-- ==== Sys2Proof/Certificates/Slice0/Obligations.lean ====
section
/-! DEFINITION. The statements for the provers. Each docstring names the rules of spec/ it formalises, and says where it
rests on a choice of the model or on an inference the spec marks as its own. -/

open Sys2Proof Sys2Proof.Machine

/-! ### Encoding -/

/-- 30_encoding.md R111: decoding an encoded compute instruction gives its fields back, decoding `EncodeA(n)` gives
`n`, encoding what was decoded gives the word back, and the encoder's image is exactly the words that decode. -/
def Obligations.DecodeInvertsEncode : Prop :=
  (∀ (dest : Dest) (comp : Comp) (jump : Jump), decode (encodeC dest comp jump) = .ok (comp.instr dest jump)) ∧
  (∀ n : Nat, n < 32768 → decode (encodeA n) = .ok (.addr (BitVec.ofNat 15 n))) ∧
  (∀ (w : Word) (i : Instr), decode w = .ok i → encode i = w) ∧
  (∀ w : Word, (∃ i : Instr, encode i = w) ↔ ∃ i : Instr, decode w = .ok i)

/-- 30_encoding.md R103 to R105, R108: which words the decoder rejects, and by which name; the others are the well-formed
ones. The list of legal codes is the model's `COMP_TABLE` (log 1). -/
def Obligations.DecoderRejectsExactly : Prop :=
  (∀ w : Word, decode w = .error .badPadding ↔ 0x8000 ≤ w.toNat ∧ w.toNat ≤ 0xDFFF) ∧
  (∀ w : Word, decode w = .error .invalidComputation ↔
    0xE000 ≤ w.toNat ∧ (w.extractLsb' 6 7).toNat ∉
      [0, 2, 7, 12, 13, 14, 15, 19, 21, 31, 42, 48, 49, 50, 51, 55, 58, 63,
       64, 66, 71, 83, 85, 112, 113, 114, 115, 119]) ∧
  (∀ w : Word, (∃ i, decode w = .ok i) ↔ Word.wellFormed w = true)

/-- Words written out from the encodings of 30_encoding.md R92, R93, R100 to R102 (the examples of R140) decode to the
instructions they stand for. The numeric comp codes are the model's `COMP_TABLE` (log 1). -/
def Obligations.EncodingSanityWords : Prop :=
  decode 0b0110000000000000#16 = .ok (.addr 24576) ∧
  decode 0b1110110000010000#16 = .ok (.regA ⟨false, true, false⟩ ⟨false, false, false⟩) ∧
  decode 0b1110000010010000#16 = .ok (.addDA ⟨false, true, false⟩ ⟨false, false, false⟩) ∧
  decode 0b1110001100001000#16 = .ok (.regD ⟨false, false, true⟩ ⟨false, false, false⟩) ∧
  decode 0b1110101010000111#16 = .ok (.zero ⟨false, false, false⟩ ⟨true, true, true⟩) ∧
  decode 0b1110001100000001#16 = .ok (.regD ⟨false, false, false⟩ ⟨false, false, true⟩) ∧
  decode 0b1111110010111101#16 = .ok (.decM ⟨true, true, true⟩ ⟨true, false, true⟩) ∧
  decode 0xA000#16 = .error .badPadding ∧
  decode 0xFA80#16 = .error .invalidComputation

/-- 30_encoding.md R109, R110: the encoder is the bit-packing of the fields, for every field value and every literal. -/
def Obligations.EncoderPacksFields : Prop :=
  (∀ n : Nat, (encodeA n).toNat = n % 32768) ∧
  (∀ (dest : Dest) (comp : Comp) (jump : Jump),
    (encodeC dest comp jump).toNat =
      0xE000 + comp.code.toNat * 64 +
        (dest.a.toNat * 4 + dest.d.toNat * 2 + dest.m.toNat) * 8 +
        (jump.neg.toNat * 4 + jump.zero.toNat * 2 + jump.pos.toNat))

/-- 30_encoding.md R100, 92_eei_decisions.md D1: what the source says of every `COMP_TABLE`: the 28 codes differ, the
selector is 1 for the ten `M` forms, and an `M` form differs from its `A` form in that bit alone. -/
def Obligations.CompTableConstraints : Prop :=
  (∀ c c' : Comp, c.code = c'.code → c = c') ∧
  (∀ c : Comp, c.selector = true ↔
    c ∈ [Comp.memM, .notM, .negM, .incM, .decM, .addDM, .subDM, .subMD, .andDM, .orDM]) ∧
  (∀ p ∈ [(Comp.regA, Comp.memM), (.notA, .notM), (.negA, .negM), (.incA, .incM), (.decA, .decM),
      (.addDA, .addDM), (.subDA, .subDM), (.subAD, .subMD), (.andDA, .andDM), (.orDA, .orDM)],
    p.1.code ^^^ p.2.code = 0b1000000#7)

/-! ### The instructions: where each completes, and the whole next state -/

/-- 40_address_instruction.md R160: an address instruction sets `A` to the zero-extended constant and advances `PC`,
leaves everything else, never faults, and at `PC = 32767` leaves the `PC` whose fetch is `RomRange`. -/
def Obligations.AddressInstructionLoadsConstant : Prop :=
  ∀ (w : Word) (s : State), w.getLsbD 15 = false →
    decode w = .ok (.addr (w.extractLsb' 0 15)) ∧
    ∃ t, exec (.addr (w.extractLsb' 0 15)) s = .next t ∧
      t.a = w ∧ t.a = w &&& 0x7FFF ∧ t.a.getLsbD 15 = false ∧ t.pc = s.pc + 1 ∧
      t.d = s.d ∧ t.mem = s.mem ∧ t.rom = s.rom ∧ t.screen = s.screen ∧ t.keys = s.keys ∧ t.output = none ∧
      (s.pc = 32767 → t.pc = 32768 ∧ step t = .fault (.romRange 32768))

/-- 42_alu_computations.md R201 to R203 with 41_compute_instruction.md R185: `0`, `1` and `-1` complete, from every
state whose store, if any, is in range. The address of the store is the old `A` (D6, log 2). -/
def Obligations.ConstantComputationsComplete : Prop :=
  ∀ (dest : Dest) (jump : Jump) (s : State), StoreInRange dest s →
    CompletesWith (.zero dest jump) dest jump 0 s ∧
    CompletesWith (.one dest jump) dest jump 1 s ∧
    CompletesWith (.negOne dest jump) dest jump 0xFFFF s

/-- R204, R206, R208, R210, R212 with R185: the five computations on `D` alone. Store at the old `A` (D6, log 2). -/
def Obligations.DataRegisterComputationsComplete : Prop :=
  ∀ (dest : Dest) (jump : Jump) (s : State), StoreInRange dest s →
    CompletesWith (.regD dest jump) dest jump s.d s ∧
    CompletesWith (.notD dest jump) dest jump (~~~s.d) s ∧
    CompletesWith (.negD dest jump) dest jump (-s.d) s ∧
    CompletesWith (.incD dest jump) dest jump (s.d + 1) s ∧
    CompletesWith (.decD dest jump) dest jump (s.d - 1) s

/-- R205, R207, R209, R211, R213 with R185: the five computations on `A` alone, whatever `A` holds unless the
instruction stores. Store at the old `A` (D6, log 2). -/
def Obligations.AddressRegisterComputationsComplete : Prop :=
  ∀ (dest : Dest) (jump : Jump) (s : State), StoreInRange dest s →
    CompletesWith (.regA dest jump) dest jump s.a s ∧
    CompletesWith (.notA dest jump) dest jump (~~~s.a) s ∧
    CompletesWith (.negA dest jump) dest jump (-s.a) s ∧
    CompletesWith (.incA dest jump) dest jump (s.a + 1) s ∧
    CompletesWith (.decA dest jump) dest jump (s.a - 1) s

/-- R214 to R218 with R185: the five computations on `D` and `A`. Store at the old `A` (D6, log 2). -/
def Obligations.RegisterPairComputationsComplete : Prop :=
  ∀ (dest : Dest) (jump : Jump) (s : State), StoreInRange dest s →
    CompletesWith (.addDA dest jump) dest jump (s.d + s.a) s ∧
    CompletesWith (.subDA dest jump) dest jump (s.d - s.a) s ∧
    CompletesWith (.subAD dest jump) dest jump (s.a - s.d) s ∧
    CompletesWith (.andDA dest jump) dest jump (s.d &&& s.a) s ∧
    CompletesWith (.orDA dest jump) dest jump (s.d ||| s.a) s

/-- R219 to R223 with R185: the five computations on the memory word at `A` alone, for every address of the data
memory. Store at the old `A` (D6, log 2). -/
def Obligations.MemoryComputationsComplete : Prop :=
  ∀ (dest : Dest) (jump : Jump) (s : State), s.a.toNat ≤ 24576 →
    CompletesWith (.memM dest jump) dest jump (s.word s.a.toNat) s ∧
    CompletesWith (.notM dest jump) dest jump (~~~s.word s.a.toNat) s ∧
    CompletesWith (.negM dest jump) dest jump (-s.word s.a.toNat) s ∧
    CompletesWith (.incM dest jump) dest jump (s.word s.a.toNat + 1) s ∧
    CompletesWith (.decM dest jump) dest jump (s.word s.a.toNat - 1) s

/-- R224 to R228 with R185: the five computations on `D` and the memory word at `A`. Store at the old `A` (D6, log 2). -/
def Obligations.DataMemoryComputationsComplete : Prop :=
  ∀ (dest : Dest) (jump : Jump) (s : State), s.a.toNat ≤ 24576 →
    CompletesWith (.addDM dest jump) dest jump (s.d + s.word s.a.toNat) s ∧
    CompletesWith (.subDM dest jump) dest jump (s.d - s.word s.a.toNat) s ∧
    CompletesWith (.subMD dest jump) dest jump (s.word s.a.toNat - s.d) s ∧
    CompletesWith (.andDM dest jump) dest jump (s.d &&& s.word s.a.toNat) s ∧
    CompletesWith (.orDM dest jump) dest jump (s.d ||| s.word s.a.toNat) s

/-! ### Where an instruction stops -/

/-- 60_exceptions.md R273: a word with selector bit 1 and `A` outside the data memory is `AddressRange` on read, for the
ten computations with any masks and for an invalid opcode alike; and nothing else is. -/
def Obligations.MemoryOperandOutOfRangeFaults : Prop :=
  (∀ (c : Comp) (dest : Dest) (jump : Jump) (s : State),
    c ∈ [Comp.memM, .notM, .negM, .incM, .decM, .addDM, .subDM, .subMD, .andDM, .orDM] → 24577 ≤ s.a.toNat →
    exec (c.instr dest jump) s = .fault (.addressRange .read s.pc s.a)) ∧
  (∀ (s : State) (w : Word), s.FetchesWord w → decode w = .error .invalidComputation → w.getLsbD 12 = true →
    24577 ≤ s.a.toNat → step s = .fault (.addressRange .read s.pc s.a)) ∧
  (∀ (i : Instr) (s : State) (pc addr : Word), exec i s = .fault (.addressRange .read pc addr) →
    24577 ≤ s.a.toNat ∧ ∃ (c : Comp) (dest : Dest) (jump : Jump), i = c.instr dest jump ∧
      c ∈ [Comp.memM, .notM, .negM, .incM, .decM, .addDM, .subDM, .subMD, .andDM, .orDM])

/-- 41_compute_instruction.md R184, 60_exceptions.md R274: a store at an address outside the data memory is
`AddressRange` on write, and only a computation with selector 0 reaches it. No successor state is the spec's decision
D17 (log 11); that the address is the old `A` is D6 (log 2). -/
def Obligations.StoreOutOfRangeFaults : Prop :=
  ∀ (c : Comp) (dest : Dest) (jump : Jump) (s : State),
    exec (c.instr dest jump) s = .fault (.addressRange .write s.pc s.a) ↔
      c.selector = false ∧ dest.m = true ∧ 24577 ≤ s.a.toNat

/-- 20_memory.md R58, 70_reset_and_hazards.md R324: an instruction faults only where it accesses memory at an
out-of-range `A`; no instruction is refused. That the address the fault names is the old `A`, also for a store, is the
spec's decision D6 (log 2), and that the `PC` it names is the instruction's own is, for a store, its decision D17
(log 11); 60_exceptions.md R274 says that the source does not give it. -/
def Obligations.InstructionsFaultOnlyOnRange : Prop :=
  (∀ (i : Instr) (s : State) (f : Fault), exec i s = .fault f →
    24577 ≤ s.a.toNat ∧ (f = .addressRange .read s.pc s.a ∨ f = .addressRange .write s.pc s.a)) ∧
  (∀ (i : Instr) (s : State) (ρ : Refusal), exec i s ≠ .refused ρ)

/-! ### Jumps and the program counter -/

/-- 41_compute_instruction.md R179: the sign flag is bit 15 of the result, the zero flag says the result is 0, and they
are never both set. -/
def Obligations.FlagsOfTheResult : Prop :=
  ∀ r : Word, (signFlag r = true ↔ r.toInt < 0) ∧ (signFlag r = r.getLsbD 15) ∧ (zeroFlag r = true ↔ r = 0) ∧
    ¬ (signFlag r = true ∧ zeroFlag r = true)

/-- 41_compute_instruction.md R180: the jump is taken exactly when the mask selects the sign class of the result. -/
def Obligations.JumpTakenBySignClass : Prop :=
  (∀ (jump : Jump) (r : Word), taken jump r = true ↔
    (jump.pos = true ∧ signFlag r = false ∧ zeroFlag r = false) ∨ (jump.zero = true ∧ zeroFlag r = true) ∨
      (jump.neg = true ∧ signFlag r = true)) ∧
  (∀ (jump : Jump) (r : Word), taken jump r = true ↔
    (jump.pos = true ∧ 0 < r.toInt) ∨ (jump.zero = true ∧ r.toInt = 0) ∨ (jump.neg = true ∧ r.toInt < 0)) ∧
  (0x8000#16).toInt = -32768 ∧
  (∀ r : Word, taken ⟨false, false, false⟩ r = false ∧ taken ⟨true, true, true⟩ r = true)

/-- 43_destinations_and_jumps.md R251 to R257 with 30_encoding.md R102: what each of the seven jump mnemonics tests. The
reading of the mnemonics' letters is general knowledge (log 19). -/
def Obligations.JumpMnemonicsTest : Prop :=
  ∀ r : Word,
    (∀ j, Asm.jumpOfToken (some ['J', 'G', 'T']) = some j → (taken j r = true ↔ 1 ≤ r.toNat ∧ r.toNat ≤ 0x7FFF)) ∧
    (∀ j, Asm.jumpOfToken (some ['J', 'E', 'Q']) = some j → (taken j r = true ↔ r.toNat = 0)) ∧
    (∀ j, Asm.jumpOfToken (some ['J', 'G', 'E']) = some j → (taken j r = true ↔ r.toNat ≤ 0x7FFF)) ∧
    (∀ j, Asm.jumpOfToken (some ['J', 'L', 'T']) = some j → (taken j r = true ↔ 0x8000 ≤ r.toNat)) ∧
    (∀ j, Asm.jumpOfToken (some ['J', 'N', 'E']) = some j → (taken j r = true ↔ r.toNat ≠ 0)) ∧
    (∀ j, Asm.jumpOfToken (some ['J', 'L', 'E']) = some j → (taken j r = true ↔ r.toNat = 0 ∨ 0x8000 ≤ r.toNat)) ∧
    (∀ j, Asm.jumpOfToken (some ['J', 'M', 'P']) = some j → taken j r = true)

/-- 10_state.md R25, 41_compute_instruction.md R181, 43_destinations_and_jumps.md R259: every instruction leaves `PC`
at the next address or at the new `A`; the address instruction and `j = 000` at the next address, `JMP` at the new
`A`. -/
def Obligations.PcIsNextOrNewA : Prop :=
  ∀ (i : Instr) (s t : State), exec i s = .next t →
    (t.pc = s.pc + 1 ∨ t.pc = t.a) ∧
    (∀ v, i = .addr v → t.pc = s.pc + 1) ∧
    (∀ (c : Comp) (dest : Dest), i = c.instr dest ⟨false, false, false⟩ → t.pc = s.pc + 1) ∧
    (∀ (c : Comp) (dest : Dest), i = c.instr dest ⟨true, true, true⟩ → t.pc = t.a)

/-! ### Frames and whole-machine rules -/

/-- 10_state.md R21 to R23: `D` is written only by a compute instruction with `d[1] = 1`, `A` only by the address
instruction or a compute instruction with `d[2] = 1`; both take the one result when both are written. -/
def Obligations.RegisterWriters : Prop :=
  ∀ (i : Instr) (s t : State), exec i s = .next t →
    (t.d ≠ s.d → ∃ (c : Comp) (dest : Dest) (jump : Jump), i = c.instr dest jump ∧ dest.d = true) ∧
    (t.a ≠ s.a → (∃ v, i = .addr v) ∨
      ∃ (c : Comp) (dest : Dest) (jump : Jump), i = c.instr dest jump ∧ dest.a = true) ∧
    (∀ (c : Comp) (dest : Dest) (jump : Jump), i = c.instr dest jump → dest.a = true → dest.d = true → t.d = t.a)

/-- 20_memory.md R57, R62, 41_compute_instruction.md R177: every word of the data memory outside the address the
instruction stores to reads as before; an instruction without destination `M` changes none. The address is the old
`A` (D6, log 2), computed by `State.storesAt`. -/
def Obligations.MemoryFrame : Prop :=
  ∀ (i : Instr) (s t : State), exec i s = .next t →
    ∀ addr : Nat, s.storesAt i ≠ some addr → t.word addr = s.word addr

/-- 20_memory.md R64, R65, 41_compute_instruction.md R183: the screen sink is told exactly of a store in the screen
region, with the word stored and its address, once. The address is the old `A` (D6, log 2). -/
def Obligations.ScreenToldExactly : Prop :=
  ∀ (i : Instr) (s t : State), exec i s = .next t →
    (s.storesAt i = some s.a.toNat → 16384 ≤ s.a.toNat → s.a.toNat ≤ 24575 →
      t.screen = s.screen ++ [⟨t.word s.a.toNat, s.a⟩]) ∧
    ((s.storesAt i = none ∨ s.a.toNat < 16384 ∨ 24575 < s.a.toNat) → t.screen = s.screen)

/-- 10_state.md R29, 20_memory.md R77: no step changes the ROM. -/
def Obligations.StepNeverChangesRom : Prop :=
  ∀ s t : State, step s = .next t → t.rom = s.rom

/-- 41_compute_instruction.md R177, R182: the CPU's part of a compute instruction writes no memory and notifies no one;
it reports the result and the target address, the write pending exactly when `d[0] = 1`. The target is the old `A`
(D6, log 2). That the result and the old `A` are reported also when `d[0] = 0`, where the spec leaves the target address
open (D9, 93 U13, 95 section 2.3), is the model's choice (log 10). -/
def Obligations.ExecuteReportsPendingWrite : Prop :=
  ∀ (c : Comp) (dest : Dest) (jump : Jump) (s t : State), s.executeCompute c dest jump = .ok t →
    t.mem = s.mem ∧ t.screen = s.screen ∧ t.rom = s.rom ∧ t.keys = s.keys ∧
    ∃ y, s.operand c.selector = .ok y ∧ t.output = some ⟨dest.m, alu c s.d y, s.a⟩

/-- 10_state.md R23, 42_alu_computations.md R232: an instruction whose computation is one of the 13 that do not name `D`
does the same whatever `D` holds: the next states differ at most in a `D` that it does not write. -/
def Obligations.ThirteenComputationsIgnoreD : Prop :=
  ∀ (c : Comp) (dest : Dest) (jump : Jump) (s : State) (x : Word),
    c ∈ [Comp.zero, .one, .negOne, .regA, .notA, .negA, .incA, .decA, .memM, .notM, .negM, .incM, .decM] →
    (∀ t, exec (c.instr dest jump) s = .next t →
      exec (c.instr dest jump) { s with d := x } = .next { t with d := if dest.d then t.d else x }) ∧
    (∀ f, exec (c.instr dest jump) s = .fault f → exec (c.instr dest jump) { s with d := x } = .fault f)

/-- 20_memory.md R58, 42_alu_computations.md R232: an instruction with selector 0 learns nothing of the data memory: from
two states that differ only there, both stop alike, or both complete with the same registers, `PC` and notifications,
and store the same word, at the old `A` (D6, log 2), if they store. -/
def Obligations.SelectorZeroIgnoresMemory : Prop :=
  ∀ (c : Comp) (dest : Dest) (jump : Jump) (s : State) (m : Store), c.selector = false →
    (∀ t, exec (c.instr dest jump) s = .next t →
      ∃ u, exec (c.instr dest jump) { s with mem := m } = .next u ∧
        u.d = t.d ∧ u.a = t.a ∧ u.pc = t.pc ∧ u.screen = t.screen ∧ u.rom = t.rom ∧
        (dest.m = true → u.word s.a.toNat = t.word s.a.toNat)) ∧
    (∀ f, exec (c.instr dest jump) s = .fault f → exec (c.instr dest jump) { s with mem := m } = .fault f)

/-! ### The ALU -/

/-- 42_alu_computations.md R232: on what the result of each computation depends, and on what it does not; for selector
0 the operand is `A`, with no memory access. -/
def Obligations.ResultsDependOn : Prop :=
  (∀ c ∈ [Comp.zero, .one, .negOne], ∀ x y x' y' : Word, alu c x y = alu c x' y') ∧
  (∀ c ∈ [Comp.regD, .notD, .negD, .incD, .decD],
    (∀ x y y' : Word, alu c x y = alu c x y') ∧ ∃ x x' y : Word, alu c x y ≠ alu c x' y) ∧
  (∀ c ∈ [Comp.regA, .notA, .negA, .incA, .decA, .memM, .notM, .negM, .incM, .decM],
    (∀ x x' y : Word, alu c x y = alu c x' y) ∧ ∃ x y y' : Word, alu c x y ≠ alu c x y') ∧
  (∀ c ∈ [Comp.addDA, .subDA, .subAD, .andDA, .orDA, .addDM, .subDM, .subMD, .andDM, .orDM],
    (∃ x x' y : Word, alu c x y ≠ alu c x' y) ∧ ∃ x y y' : Word, alu c x y ≠ alu c x y') ∧
  (∀ (c : Comp) (s : State), c.selector = false → s.operand c.selector = .ok s.a)

/-- 42_alu_computations.md R229, 00_scope.md R9: the arithmetic results are exact modulo 65536. -/
def Obligations.ArithmeticWrapsModulo65536 : Prop :=
  ∀ x y : Word,
    (add16 x y).toNat = (x.toNat + y.toNat) % 65536 ∧
    (neg16 x).toNat = (65536 - x.toNat) % 65536 ∧
    (sub16 x y).toNat = (65536 + x.toNat - y.toNat) % 65536 ∧
    (not16 x).toNat = 65535 - x.toNat ∧
    (add16 x y).toInt = (x.toInt + y.toInt).bmod 65536 ∧
    (sub16 x y).toInt = (x.toInt - y.toInt).bmod 65536

/-- 42_alu_computations.md R230: exact results at the boundaries, and the laws between the primitives. -/
def Obligations.BoundaryLaws : Prop :=
  add16 0xFFFF 1 = 0 ∧ add16 0x7FFF 1 = 0x8000 ∧ add16 0 0xFFFF = 0xFFFF ∧ add16 0x8000 0xFFFF = 0x7FFF ∧
  neg16 0 = 0 ∧ neg16 0x8000 = 0x8000 ∧ neg16 1 = 0xFFFF ∧
  ∀ x y v : Word,
    neg16 (neg16 v) = v ∧ not16 (not16 v) = v ∧ neg16 v = add16 (not16 v) 1 ∧ sub16 v v = 0 ∧
    sub16 0 v = neg16 v ∧ sub16 v 0 = v ∧ sub16 x y = neg16 (sub16 y x) ∧ and16 v (not16 v) = 0 ∧
    or16 v (not16 v) = 0xFFFF

/-! ### Memory -/

/-- 20_memory.md R56: both data-memory operations fail with `AddressRange` at 24577 and above; below it a read returns
the word and a write replaces it, and it alone. -/
def Obligations.DataAccessRangeCheck : Prop :=
  ∀ (s : State) (pc addr v : Word),
    (24577 ≤ addr.toNat →
      s.memRead pc addr = .error (.addressRange .read pc addr) ∧
      s.memWrite pc addr v = .error (.addressRange .write pc addr)) ∧
    (addr.toNat ≤ 24576 →
      s.memRead pc addr = .ok (s.word addr.toNat) ∧
      ∃ t, s.memWrite pc addr v = .ok t ∧ t.memRead pc addr = .ok v ∧
        (∀ addr' : Word, addr' ≠ addr → t.memRead pc addr' = s.memRead pc addr') ∧
        t.d = s.d ∧ t.a = s.a ∧ t.pc = s.pc ∧ t.rom = s.rom ∧ t.screen = s.screen)

/-- 20_memory.md R65: the screen predicate holds exactly from 16384 to 24575, not at 0x3FFF and not at 0x6000. -/
def Obligations.ScreenPredicateRange : Prop :=
  (∀ addr : Word, isScreenAddress addr = true ↔ 16384 ≤ addr.toNat ∧ addr.toNat ≤ 24575) ∧
  isScreenAddress 0x4000 = true ∧ isScreenAddress 0x3FFF = false ∧ isScreenAddress 0x6000 = false

/-- 20_memory.md R68, R79: between two steps the host replaces the keyboard word by the last code it writes, if it
writes any, and changes no other word and no register. The tape of codes is the model's own field (log 8). -/
def Obligations.HostWritesKeyboardOnly : Prop :=
  ∀ (s : State) (codes : List Word) (rest : List (List Word)), s.keys = codes :: rest →
    s.hostPhase.word 24576 = codes.getLastD (s.word 24576) ∧
    (∀ addr : Nat, addr ≠ 24576 → s.hostPhase.word addr = s.word addr) ∧
    s.hostPhase.d = s.d ∧ s.hostPhase.a = s.a ∧ s.hostPhase.pc = s.pc ∧ s.hostPhase.rom = s.rom ∧
    s.hostPhase.screen = s.screen ∧ s.hostPhase.keys = rest

/-! ### Steps and faults of the fetch -/

/-- 41_compute_instruction.md R170, R171, R185: when the word at `PC` decodes to an instruction, a step is that
instruction at the state after the host's keyboard writes, which differ only in the keyboard word and the tape
(log 8); where the host writes nothing it is the instruction at the state itself. -/
def Obligations.StepRunsDecodedInstruction : Prop :=
  ∀ (s : State) (w : Word) (i : Instr), s.FetchesWord w → decode w = .ok i →
    step s = exec i s.hostPhase ∧ (s.keys = [] → step s = exec i s)

/-- 20_memory.md R52, 60_exceptions.md R271: a fetch with `PC` outside the ROM is `RomRange`, and `RomRange` is nothing
else. -/
def Obligations.FetchOutsideRomFaults : Prop :=
  (∀ s : State, 32768 ≤ s.pc.toNat → step s = .fault (.romRange s.pc)) ∧
  (∀ (s : State) (pc : Word), step s = .fault (.romRange pc) → pc = s.pc ∧ 32768 ≤ s.pc.toNat)

/-- 70_reset_and_hazards.md R317: a fetch past the loaded image is the model's own fault (the spec's decision D7,
log 3). -/
def Obligations.FetchPastImageFaults : Prop :=
  ∀ s : State, s.pc.toNat ≤ 32767 → Store.lookup s.rom s.pc.toNat = none → step s = .fault (.romUnloaded s.pc)

/-- 41_compute_instruction.md R172: a fetched word with bit 15 set and other padding than `11` is `BadPadding`, before
anything else is looked at, whatever the registers and the memory hold. -/
def Obligations.BadPaddingFaultsFirst : Prop :=
  ∀ (s : State) (w : Word), s.FetchesWord w → w.getLsbD 15 = true → w.extractLsb' 13 2 ≠ 0b11#2 →
    step s = .fault (.badPadding s.pc w)

/-- 41_compute_instruction.md R174, 60_exceptions.md R275, R281: a fetched word whose computation is invalid is
`InvalidComputation`, unless the operand fetch that comes first fails. The order is the spec's decision D16 (log 11). -/
def Obligations.InvalidComputationFaults : Prop :=
  ∀ (s : State) (w : Word), s.FetchesWord w → decode w = .error .invalidComputation →
    (w.getLsbD 12 = false ∨ s.a.toNat ≤ 24576 → step s = .fault (.invalidComputation s.pc w)) ∧
    (w.getLsbD 12 = true ∧ 24577 ≤ s.a.toNat → step s = .fault (.addressRange .read s.pc s.a))

/-! ### Invariant, reset, loading -/

/-- 10_state.md R32, R36, 20_memory.md R53, R65: every step keeps the invariant: data memory and ROM in canonical form
within their address ranges, no output left over, and the sink told of screen addresses only. -/
def Obligations.StepKeepsInvariant : Prop :=
  ∀ s t : State, s.Inv → step s = .next t → t.Inv

/-- The state after reset meets the invariant. -/
def Obligations.ResetMeetsInvariant : Prop := State.reset.Inv

/-- 10_state.md R35, 70_reset_and_hazards.md R310, R314: after reset `PC` is 0 and the keyboard word is 0. That `D`, `A`
and the rest of the memory are 0 and no image is loaded is the model's choice (log 4, log 5, log 12). -/
def Obligations.ResetValues : Prop :=
  State.reset.pc = 0 ∧ State.reset.word 24576 = 0 ∧
  State.reset.d = 0 ∧ State.reset.a = 0 ∧ (∀ addr : Nat, State.reset.word addr = 0) ∧
  (∀ addr : Nat, Store.lookup State.reset.rom addr = none) ∧ State.reset.output = none

/-- 70_reset_and_hazards.md R316, 20_memory.md R60, 30_encoding.md R143: loading an image of an even number of bytes, at
most 65536, puts the word of bytes `2i` and `2i + 1`, high byte first, at ROM address `i`, loads nothing above it, and
changes nothing else; the binary form of a list of words has the high byte of word `i` at `2i` and the low one at
`2i + 1`; so every word of the list is loaded and fetched at its index. That the fault of an image that does not load
records its length is the model's choice (log 23). -/
def Obligations.ImageLoadPlacesWords : Prop :=
  (∀ (bytes : List Byte) (s : State), bytes.length % 2 = 0 → bytes.length ≤ 65536 →
    ∃ t, loadImage bytes s = .ok t ∧ Rom.wf t.rom = true ∧ RomHoldsImage bytes t.rom ∧
      t.d = s.d ∧ t.a = s.a ∧ t.pc = s.pc ∧ t.mem = s.mem ∧ t.screen = s.screen ∧ t.keys = s.keys ∧
      t.output = s.output) ∧
  (∀ ws : List Word, (Asm.binaryImage ws).length = 2 * ws.length) ∧
  (∀ (ws : List Word) (i : Nat) (w : Word), ws[i]? = some w →
    ∃ hi lo : Byte, (Asm.binaryImage ws)[2 * i]? = some hi ∧ (Asm.binaryImage ws)[2 * i + 1]? = some lo ∧
      hi.toNat = w.toNat / 256 ∧ lo.toNat = w.toNat % 256) ∧
  (∀ (bytes : List Byte) (s : State) (f : Fault), loadImage bytes s = .error f → f = .imageLoad bytes.length) ∧
  ∀ (ws : List Word) (s : State), ws.length ≤ 32768 →
    ∃ t, loadImage (Asm.binaryImage ws) s = .ok t ∧ Rom.wf t.rom = true ∧
      (∀ i : Nat, Store.lookup t.rom i = ws[i]?) ∧
      (∀ (i : Nat) (w : Word), ws[i]? = some w → t.romRead (BitVec.ofNat 16 i) = .ok w) ∧
      t.d = s.d ∧ t.a = s.a ∧ t.pc = s.pc ∧ t.mem = s.mem ∧ t.screen = s.screen ∧ t.keys = s.keys ∧
      t.output = s.output

/-- 60_exceptions.md R276: an image of odd length or of more than 65536 bytes is `ImageLoad`, whatever it records, and no
other is; the empty image loads and leaves no loaded word. -/
def Obligations.BadImageRejected : Prop :=
  (∀ (bytes : List Byte) (s : State),
    (∃ recorded, loadImage bytes s = .error (.imageLoad recorded)) ↔ bytes.length % 2 = 1 ∨ 65536 < bytes.length) ∧
  (∀ (bytes : List Byte) (s : State), bytes.length % 2 = 0 → bytes.length ≤ 65536 → ∃ t, loadImage bytes s = .ok t) ∧
  (∀ s : State, ∃ t, loadImage [] s = .ok t ∧ ∀ addr : Nat, Store.lookup t.rom addr = none)

/-- 10_state.md R35, 70_reset_and_hazards.md R310 to R316: a launch from every loadable image, every `RESET_D`, `RESET_A`,
every initial memory in canonical form and every host behaviour starts at `PC = 0` with those values, the image's words
in the ROM and nothing loaded above them, no output and no notification, and meets the invariant. -/
def Obligations.LaunchStartsTheRun : Prop :=
  ∀ (bytes : List Byte) (d a : Word) (ram : Store) (keys : List (List Word)),
    bytes.length % 2 = 0 → bytes.length ≤ 65536 → Memory.wf ram = true →
    ∃ s, launch bytes d a ram keys = .ok s ∧ s.pc = 0 ∧ s.d = d ∧ s.a = a ∧ s.mem = ram ∧ s.keys = keys ∧
      RomHoldsImage bytes s.rom ∧ s.screen = [] ∧ s.output = none ∧ s.Inv

/-- 70_reset_and_hazards.md R327: from a state quiescent at `L` a step runs, to a state quiescent at `L` with the same
`D` and the same data memory but for the host's keyboard writes, with `A = L` and `PC` alternating between `L` and
`L + 1`. The definition of quiescence is the spec's decision D18. -/
def Obligations.QuiescenceLasts : Prop :=
  ∀ (L : Nat) (s : State), QuiescentAt L s →
    ∃ t, step s = .next t ∧ QuiescentAt L t ∧ t.d = s.d ∧ t.a.toNat = L ∧
      (∀ addr : Nat, addr ≠ 24576 → t.word addr = s.word addr) ∧ (s.keys = [] → t.mem = s.mem) ∧
      (s.pc.toNat = L → t.pc.toNat = L + 1) ∧ (s.pc.toNat = L + 1 → t.pc.toNat = L)

/-! ### The assembly language -/

/-- 30_encoding.md R146, R111: assembling the printed text of an instruction returns its word and leaves the symbol table
as it was. The spelling printed is the spec's decision D14 (log 20). -/
def Obligations.AssembleInvertsPrint : Prop :=
  ∀ (i : Instr) (n : Nat) (t : Asm.SymbolTable),
    Asm.clean (Asm.printInstr i) = Asm.printInstr i ∧
    Asm.encodeLine n t (Asm.printInstr i) = .ok (encode i, t)

/-- 30_encoding.md R111, R141, 60_exceptions.md R272, R275: an assembly that succeeds yields one word for each
instruction line, every one of them an instruction. -/
def Obligations.AssemblerEmitsInstructions : Prop :=
  ∀ (source : Text) (ws : List Word), Asm.assemble source = .ok ws →
    (∀ w ∈ ws, ∃ i, decode w = .ok i) ∧
    ∃ lines, Asm.preprocessedText source = .ok lines ∧ lines.length = ws.length

/-- 30_encoding.md R123, R124, R127, R128: a label's value is the number of instruction lines before its last
declaration, as a 15-bit address; that an index past 32767 is kept modulo 32768 is the model's reading (log 21). -/
def Obligations.LabelNamesNextInstruction : Prop :=
  ∀ (before after : List Text) (line name : Text) (n k : Nat) (t t' : Asm.SymbolTable) (lines : List (Nat × Text)),
    Asm.preprocessFrom n k t (before ++ line :: after) = .ok (lines, t') →
    declaresLabel name line = true → (∀ l ∈ after, declaresLabel name l = false) →
    ∃ addr, t'.lookup name = some addr ∧ addr.toNat = (k + instructionLines before) % 32768

/-- 30_encoding.md R129, R134: a name not in the table gets the next variable address, the first one 16, the counter
advances by one, and the same name resolves to the same address ever after; no other name is affected. -/
def Obligations.VariableAllocation : Prop :=
  Asm.SymbolTable.initial.nextVar = 16 ∧
  ∀ (t : Asm.SymbolTable) (line : Nat) (name : Text), t.lookup name = none → t.nextVar < 16384 →
    ∃ addr t', t.resolve line name = .ok (addr, t') ∧ addr.toNat = t.nextVar ∧ t'.nextVar = t.nextVar + 1 ∧
      (∀ line' : Nat, t'.resolve line' name = .ok (addr, t')) ∧
      (∀ other : Text, other ≠ name → t'.lookup other = t.lookup other)

/-- 30_encoding.md R127: the predefined names and their values; `SP` to `THAT` name the same addresses as `R0` to `R4`. -/
def Obligations.PredefinedSymbols : Prop :=
  Asm.SymbolTable.initial.entries.length = 23 ∧
  (∀ p ∈ [(['S', 'P'], ['R', '0']), (['L', 'C', 'L'], ['R', '1']), (['A', 'R', 'G'], ['R', '2']),
      (['T', 'H', 'I', 'S'], ['R', '3']), (['T', 'H', 'A', 'T'], ['R', '4'])],
    Asm.SymbolTable.initial.lookup p.1 = Asm.SymbolTable.initial.lookup p.2) ∧
  (∀ k < 10, Asm.SymbolTable.initial.lookup ['R', Char.ofNat (48 + k)] = some (BitVec.ofNat 15 k)) ∧
  (∀ k < 6, Asm.SymbolTable.initial.lookup ['R', '1', Char.ofNat (48 + k)] = some (BitVec.ofNat 15 (10 + k))) ∧
  Asm.SymbolTable.initial.lookup ['S', 'C', 'R', 'E', 'E', 'N'] = some 16384 ∧
  Asm.SymbolTable.initial.lookup ['K', 'B', 'D'] = some 24576

/-- 30_encoding.md R121: cleaning leaves no space, tab or carriage return, and drops the text from the first `//` on.
That the comment goes before the blanks do is the model's reading (log 14). -/
def Obligations.CleaningDropsCommentsAndBlanks : Prop :=
  (∀ (line : Text) (c : Char), c ∈ Asm.clean line → c ≠ ' ' ∧ c ≠ '\t' ∧ c ≠ '\r') ∧
  (∀ line rest : Text, Asm.stripComment line = line → line.getLast? ≠ some '/' →
    Asm.clean (line ++ '/' :: '/' :: rest) = Asm.clean line) ∧
  (∀ line : Text, '/' ∉ line → Asm.clean line = line.filter (fun c => !Asm.isBlank c))
end

