-- ==== Sys2Proof/Laws/Alu.lean ====
section
/-! SUPPORT. The primitives of 00_scope.md R9 in the terms of `BitVec`. -/

namespace Sys2Proof.Machine

theorem neg16_eq_neg (x : Word) : neg16 x = -x := by
  apply BitVec.eq_of_toNat_eq
  simp only [neg16, not16, add16, BitVec.toNat_not, BitVec.toNat_add, BitVec.toNat_neg]
  have := x.isLt
  simp
  omega

theorem sub16_eq_sub (x y : Word) : sub16 x y = x - y := by
  rw [sub16, neg16_eq_neg, add16, BitVec.sub_eq_add_neg]

theorem add16_ones_eq_pred (x : Word) : add16 x 0xFFFF = x - 1 := by
  rw [add16, BitVec.sub_eq_add_neg]
  congr 1

end Sys2Proof.Machine
end

