-- ==== Sys2Proof/Laws/Decode.lean ====
section
/-! SUPPORT. The tables of the decoder and the encoder are inverse to each other, field by field. -/

namespace Sys2Proof

@[simp] theorem Comp.mem_all (c : Comp) : c ∈ Comp.all := by cases c <;> decide

@[simp] theorem compOfCode_code (c : Comp) : compOfCode c.code = some c := by cases c <;> decide

theorem code_of_compOfCode {code : BitVec 7} {c : Comp} (h : compOfCode code = some c) : c.code = code := by
  simpa using List.find?_some h

@[simp] theorem Dest.ofMask_mask (dest : Dest) : Dest.ofMask dest.mask = dest := by
  obtain ⟨a, d, m⟩ := dest
  revert a d m; decide

@[simp] theorem Jump.ofMask_mask (jump : Jump) : Jump.ofMask jump.mask = jump := by
  obtain ⟨n, z, p⟩ := jump
  revert n z p; decide

@[simp] theorem Comp.instr_form (c : Comp) (dest : Dest) (jump : Jump) :
    (c.instr dest jump).form = .compute c dest jump := by
  cases c <;> rfl

@[simp] theorem Form.instr_form (f : Form) : f.instr.form = f := by
  cases f
  · rfl
  · exact Comp.instr_form _ _ _

@[simp] theorem Instr.form_instr (i : Instr) : i.form.instr = i := by
  cases i <;> rfl

/-- The selector bit names the ten computations on `M` (30_encoding.md R100). -/
theorem Comp.selector_iff (c : Comp) :
    c.selector = true ↔
      c ∈ [Comp.memM, .notM, .negM, .incM, .decM, .addDM, .subDM, .subMD, .andDM, .orDM] := by
  cases c <;> decide

/-- Every instruction is the address instruction or a compute instruction. -/
theorem Instr.cases_form (i : Instr) :
    (∃ v, i = .addr v) ∨ ∃ c dest jump, i = Comp.instr dest jump c := by
  have h := Instr.form_instr i
  cases hf : i.form with
  | address v => exact .inl ⟨v, by rw [← h, hf]; rfl⟩
  | compute c dest jump => exact .inr ⟨c, dest, jump, by rw [← h, hf]; rfl⟩

end Sys2Proof
end

