-- ==== Sys2Proof/Laws/Asm.lean ====
section
/-! SUPPORT. The assembler: what a line of source does to the first pass, and what a word of the second pass is. -/

namespace Sys2Proof.Asm

theorem lookup_setLabel (t : SymbolTable) (name other : Text) (index : Nat) :
    (t.setLabel name index).lookup other =
      if other = name then some (BitVec.ofNat 15 index) else t.lookup other := by
  unfold SymbolTable.setLabel SymbolTable.lookup
  by_cases h : name = other
  · simp [h]
  · have h' : (name == other) = false := by simpa using h
    simp only [List.find?_cons, h', if_neg (Ne.symm h)]
    rw [List.find?_filter]
    congr 2
    funext e
    by_cases he : e.1 = other <;> simp [he, Ne.symm h]

/-- A blank line does nothing (30_encoding.md R122). -/
theorem preprocessFrom_blank {n k : Nat} {t : SymbolTable} {raw : Text} {rest : List Text} (h : clean raw = []) :
    preprocessFrom n k t (raw :: rest) = preprocessFrom (n + 1) k t rest := by
  conv => lhs; unfold preprocessFrom
  rw [h]

/-- A line that begins with `(` and is accepted binds its label to the address reached (30_encoding.md R123). -/
theorem preprocessFrom_label {n k : Nat} {t : SymbolTable} {raw body : Text} {rest : List Text}
    {r : List (Nat × Text) × SymbolTable} (hc : clean raw = '(' :: body)
    (h : preprocessFrom n k t (raw :: rest) = .ok r) :
    ∃ name, clean raw = '(' :: name ++ [')'] ∧ preprocessFrom (n + 1) k (t.setLabel name k) rest = .ok r := by
  unfold preprocessFrom at h
  rw [hc] at h
  simp only [parseLine] at h
  cases hr : body.reverse with
  | nil => simp [hr] at h
  | cons c name =>
    rw [hr] at h
    by_cases hcc : c = ')'
    · subst hcc
      cases name with
      | nil => simp at h
      | cons x xs =>
        refine ⟨(x :: xs).reverse, ?_, ?_⟩
        · rw [hc]
          have := congrArg List.reverse hr
          simp at this ⊢
          exact this
        · simp only at h
          split at h
          · cases h
          · cases h
          · rename_i hh
            cases hh
            exact h
          · simp_all
    · exfalso
      revert h
      split
      · rename_i hh
        split at hh <;> simp_all
      · rename_i hh
        split at hh <;> simp_all
      · rename_i hh
        split at hh <;> simp_all
      · simp

/-- A line that is neither blank nor a label is emitted, and advances the address (30_encoding.md R124). -/
theorem preprocessFrom_instruction {n k : Nat} {t t' : SymbolTable} {raw line : Text} {c : Char} {rest : List Text}
    {lines : List (Nat × Text)} (hc : clean raw = c :: line) (hne : c ≠ '(')
    (h : preprocessFrom n k t (raw :: rest) = .ok (lines, t')) :
    ∃ ls, preprocessFrom (n + 1) (k + 1) t rest = .ok (ls, t') ∧ lines = (n, c :: line) :: ls := by
  unfold preprocessFrom at h
  rw [hc] at h
  split at h
  · simp_all
  · simp_all
  · split at h
    · cases h
    · rename_i hh
      cases h
      exact ⟨_, hh, rfl⟩

/-- A word of the second pass is one that `EncodeA` or `EncodeC` makes (30_encoding.md R109, R110). -/
theorem encodeLine_form {n : Nat} {t t' : SymbolTable} {line : Text} {w : Word}
    (h : encodeLine n t line = .ok (w, t')) : (∃ v, w = encodeA v) ∨ ∃ dest comp jump, w = encodeC dest comp jump := by
  unfold encodeLine at h
  split at h
  · cases h
  · cases h
  · cases h
    exact .inr ⟨_, _, _, rfl⟩
  · split at h
    · cases h
      exact .inl ⟨_, rfl⟩
    · cases h
  · split at h
    · split at h
      · cases h
      · cases h
        exact .inl ⟨_, rfl⟩
    · cases h

end Sys2Proof.Asm
end

