-- ==== Sys2Proof/Laws/State.lean ====
section
/-! SUPPORT. One lemma per field and update of the state, so that no proof unfolds a record update. -/

namespace Sys2Proof.Machine

@[simp] theorem State.setD_d (s : State) (w : Word) : (s.setD w).d = w := rfl
@[simp] theorem State.setD_a (s : State) (w : Word) : (s.setD w).a = s.a := rfl
@[simp] theorem State.setD_pc (s : State) (w : Word) : (s.setD w).pc = s.pc := rfl
@[simp] theorem State.setD_rom (s : State) (w : Word) : (s.setD w).rom = s.rom := rfl
@[simp] theorem State.setD_mem (s : State) (w : Word) : (s.setD w).mem = s.mem := rfl
@[simp] theorem State.setD_output (s : State) (w : Word) : (s.setD w).output = s.output := rfl
@[simp] theorem State.setD_screen (s : State) (w : Word) : (s.setD w).screen = s.screen := rfl
@[simp] theorem State.setD_keys (s : State) (w : Word) : (s.setD w).keys = s.keys := rfl

@[simp] theorem State.setA_d (s : State) (w : Word) : (s.setA w).d = s.d := rfl
@[simp] theorem State.setA_a (s : State) (w : Word) : (s.setA w).a = w := rfl
@[simp] theorem State.setA_pc (s : State) (w : Word) : (s.setA w).pc = s.pc := rfl
@[simp] theorem State.setA_rom (s : State) (w : Word) : (s.setA w).rom = s.rom := rfl
@[simp] theorem State.setA_mem (s : State) (w : Word) : (s.setA w).mem = s.mem := rfl
@[simp] theorem State.setA_output (s : State) (w : Word) : (s.setA w).output = s.output := rfl
@[simp] theorem State.setA_screen (s : State) (w : Word) : (s.setA w).screen = s.screen := rfl
@[simp] theorem State.setA_keys (s : State) (w : Word) : (s.setA w).keys = s.keys := rfl

@[simp] theorem State.setPc_d (s : State) (w : Word) : (s.setPc w).d = s.d := rfl
@[simp] theorem State.setPc_a (s : State) (w : Word) : (s.setPc w).a = s.a := rfl
@[simp] theorem State.setPc_pc (s : State) (w : Word) : (s.setPc w).pc = w := rfl
@[simp] theorem State.setPc_rom (s : State) (w : Word) : (s.setPc w).rom = s.rom := rfl
@[simp] theorem State.setPc_mem (s : State) (w : Word) : (s.setPc w).mem = s.mem := rfl
@[simp] theorem State.setPc_output (s : State) (w : Word) : (s.setPc w).output = s.output := rfl
@[simp] theorem State.setPc_screen (s : State) (w : Word) : (s.setPc w).screen = s.screen := rfl
@[simp] theorem State.setPc_keys (s : State) (w : Word) : (s.setPc w).keys = s.keys := rfl

@[simp] theorem State.setOutput_d (s : State) (o : Option CpuOutput) : (s.setOutput o).d = s.d := rfl
@[simp] theorem State.setOutput_a (s : State) (o : Option CpuOutput) : (s.setOutput o).a = s.a := rfl
@[simp] theorem State.setOutput_pc (s : State) (o : Option CpuOutput) : (s.setOutput o).pc = s.pc := rfl
@[simp] theorem State.setOutput_rom (s : State) (o : Option CpuOutput) : (s.setOutput o).rom = s.rom := rfl
@[simp] theorem State.setOutput_mem (s : State) (o : Option CpuOutput) : (s.setOutput o).mem = s.mem := rfl
@[simp] theorem State.setOutput_output (s : State) (o : Option CpuOutput) : (s.setOutput o).output = o := rfl
@[simp] theorem State.setOutput_screen (s : State) (o : Option CpuOutput) : (s.setOutput o).screen = s.screen := rfl
@[simp] theorem State.setOutput_keys (s : State) (o : Option CpuOutput) : (s.setOutput o).keys = s.keys := rfl

@[simp] theorem State.present_d (s : State) (w addr : Word) : (s.present w addr).d = s.d := rfl
@[simp] theorem State.present_a (s : State) (w addr : Word) : (s.present w addr).a = s.a := rfl
@[simp] theorem State.present_pc (s : State) (w addr : Word) : (s.present w addr).pc = s.pc := rfl
@[simp] theorem State.present_rom (s : State) (w addr : Word) : (s.present w addr).rom = s.rom := rfl
@[simp] theorem State.present_mem (s : State) (w addr : Word) : (s.present w addr).mem = s.mem := rfl
@[simp] theorem State.present_output (s : State) (w addr : Word) : (s.present w addr).output = s.output := rfl
@[simp] theorem State.present_screen (s : State) (w addr : Word) : (s.present w addr).screen = s.screen ++ [⟨w, addr⟩] := rfl
@[simp] theorem State.present_keys (s : State) (w addr : Word) : (s.present w addr).keys = s.keys := rfl

@[simp] theorem State.setKeyboardReg_d (s : State) (code : Word) : (s.setKeyboardReg code).d = s.d := rfl
@[simp] theorem State.setKeyboardReg_a (s : State) (code : Word) : (s.setKeyboardReg code).a = s.a := rfl
@[simp] theorem State.setKeyboardReg_pc (s : State) (code : Word) : (s.setKeyboardReg code).pc = s.pc := rfl
@[simp] theorem State.setKeyboardReg_rom (s : State) (code : Word) : (s.setKeyboardReg code).rom = s.rom := rfl
@[simp] theorem State.setKeyboardReg_mem (s : State) (code : Word) : (s.setKeyboardReg code).mem = Memory.write s.mem Config.kbdAddr code := rfl
@[simp] theorem State.setKeyboardReg_output (s : State) (code : Word) : (s.setKeyboardReg code).output = s.output := rfl
@[simp] theorem State.setKeyboardReg_screen (s : State) (code : Word) : (s.setKeyboardReg code).screen = s.screen := rfl
@[simp] theorem State.setKeyboardReg_keys (s : State) (code : Word) : (s.setKeyboardReg code).keys = s.keys := rfl

end Sys2Proof.Machine
end

