-- ==== Sys2Proof/Laws/Store.lean ====
section
/-! SUPPORT. The stores: reading after an insertion, an erasure and a write, and that each keeps the canonical form. -/

namespace Sys2Proof.Machine

/-- Every address of a store lies above `k`. -/
def Store.above (k : Nat) (m : Store) : Prop := ∀ c ∈ m, k < c.1

theorem Store.rising_cons (c : WordCell) (m : Store) :
    Store.rising (c :: m) = true ↔ Store.above c.1 m ∧ Store.rising m = true := by
  induction m generalizing c with
  | nil => simp [Store.rising, Store.above]
  | cons c' m ih =>
    simp only [Store.rising, Bool.and_eq_true, decide_eq_true_eq, Store.above, List.mem_cons, forall_eq_or_imp]
    constructor
    · rintro ⟨h, hr⟩
      exact ⟨⟨h, fun x hx => lt_trans h (((ih c').1 hr).1 x hx)⟩, hr⟩
    · rintro ⟨⟨h, _⟩, hr⟩
      exact ⟨h, hr⟩

theorem Store.mem_insert {addr : Nat} {w : Word} {m : Store} {c : WordCell} (h : c ∈ Store.insert addr w m) :
    c = (addr, w) ∨ c ∈ m := by
  induction m with
  | nil => simpa [Store.insert] using h
  | cons c' m ih =>
    simp only [Store.insert] at h
    split at h
    · simpa using h
    · split at h
      · rcases List.mem_cons.1 h with h | h
        · exact .inl h
        · exact .inr (List.mem_cons_of_mem _ h)
      · rcases List.mem_cons.1 h with h | h
        · exact .inr (by simp [h])
        · exact (ih h).imp_right (List.mem_cons_of_mem _)

theorem Store.rising_insert {addr : Nat} {w : Word} {m : Store} (h : Store.rising m = true) :
    Store.rising (Store.insert addr w m) = true := by
  induction m with
  | nil => rfl
  | cons c m ih =>
    have hc := (Store.rising_cons c m).1 h
    simp only [Store.insert]
    split
    · rename_i hlt
      refine (Store.rising_cons _ _).2 ⟨?_, h⟩
      intro x hx
      rcases List.mem_cons.1 hx with rfl | hx
      · exact hlt
      · exact lt_trans hlt (hc.1 x hx)
    · rename_i hge
      split
      · rename_i heq
        subst heq
        exact (Store.rising_cons _ _).2 hc
      · rename_i hne
        refine (Store.rising_cons _ _).2 ⟨?_, ih hc.2⟩
        intro x hx
        rcases Store.mem_insert hx with rfl | hx
        · exact lt_of_le_of_ne (Nat.le_of_not_lt hge) (Ne.symm hne)
        · exact hc.1 x hx

theorem Store.rising_erase {addr : Nat} {m : Store} (h : Store.rising m = true) :
    Store.rising (Store.erase addr m) = true := by
  induction m with
  | nil => rfl
  | cons c m ih =>
    have hc := (Store.rising_cons c m).1 h
    have ih := ih hc.2
    simp only [Store.erase, List.filter_cons] at ih ⊢
    split
    · exact (Store.rising_cons _ _).2 ⟨fun x hx => hc.1 x (List.mem_filter.1 hx).1, ih⟩
    · exact ih

theorem Store.lookup_insert (addr : Nat) (w : Word) (m : Store) (addr' : Nat) :
    Store.lookup (Store.insert addr w m) addr' = if addr' = addr then some w else Store.lookup m addr' := by
  induction m with
  | nil => simp [Store.insert, Store.lookup, eq_comm]
  | cons c m ih =>
    simp only [Store.insert]
    split
    · simp [Store.lookup, eq_comm]
    · split
      · rename_i heq
        subst heq
        by_cases h : addr' = c.1
        · simp [Store.lookup, h]
        · simp [Store.lookup, h, show ¬ c.1 = addr' from fun e => h e.symm]
      · rename_i hne
        by_cases h : c.1 = addr'
        · have : ¬ addr' = addr := fun e => hne (e.symm.trans h.symm)
          simp [Store.lookup, h, this]
        · simp [Store.lookup, h, ih]

theorem Store.lookup_erase (addr : Nat) (m : Store) (addr' : Nat) :
    Store.lookup (Store.erase addr m) addr' = if addr' = addr then none else Store.lookup m addr' := by
  induction m with
  | nil => simp [Store.erase, Store.lookup]
  | cons c m ih =>
    simp only [Store.erase, List.filter_cons] at ih ⊢
    by_cases h : c.1 = addr
    · by_cases h' : addr' = addr
      · simpa [h, h'] using ih
      · have : ¬ addr = addr' := fun e => h' e.symm
        simpa [h, h', Store.lookup, this] using ih
    · by_cases h' : c.1 = addr'
      · simp [Store.lookup, h', show ¬ addr' = addr from fun e => h (h'.trans e)]
      · simpa [h, Store.lookup, h'] using ih

/-- A read after a write: the word written at its address, and the word that stood there everywhere else. -/
theorem Memory.read_write (m : Store) (addr : Nat) (w : Word) (addr' : Nat) :
    Memory.read (Memory.write m addr w) addr' = if addr' = addr then w else Memory.read m addr' := by
  unfold Memory.write
  split
  · rename_i hw
    by_cases h : addr' = addr <;> simp [Memory.read, Store.lookup_erase, h, hw]
  · by_cases h : addr' = addr <;> simp [Memory.read, Store.lookup_insert, h]

theorem Memory.wf_write {m : Store} {addr : Nat} {w : Word} (h : Memory.wf m = true)
    (ha : addr < Config.totalSize) : Memory.wf (Memory.write m addr w) = true := by
  simp only [Memory.wf, Bool.and_eq_true, List.all_eq_true, decide_eq_true_eq, bne_iff_ne] at h ⊢
  unfold Memory.write
  split
  · exact ⟨Store.rising_erase h.1, fun x hx => h.2 x (List.mem_filter.1 hx).1⟩
  · rename_i hw
    refine ⟨Store.rising_insert h.1, fun x hx => ?_⟩
    rcases Store.mem_insert hx with rfl | hx
    · exact ⟨ha, hw⟩
    · exact h.2 x hx

theorem Rom.wf_insert {m : Store} {addr : Nat} {w : Word} (h : Rom.wf m = true) (ha : addr < Config.romSize) :
    Rom.wf (Store.insert addr w m) = true := by
  simp only [Rom.wf, Bool.and_eq_true, List.all_eq_true, decide_eq_true_eq] at h ⊢
  refine ⟨Store.rising_insert h.1, fun x hx => ?_⟩
  rcases Store.mem_insert hx with rfl | hx
  · exact ha
  · exact h.2 x hx

end Sys2Proof.Machine
end

