-- ==== Sys2Proof/Laws/Ops.lean ====
section
/-! SUPPORT. For each shared operation, one lemma that says everything it can do. -/

namespace Sys2Proof.Machine

theorem State.memRead_cases (s : State) (pc addr : Word) :
    (24577 ≤ addr.toNat ∧ s.memRead pc addr = .error (.addressRange .read pc addr)) ∨
    (addr.toNat < 24577 ∧ s.memRead pc addr = .ok (Memory.read s.mem addr.toNat)) := by
  unfold State.memRead
  split
  · exact .inl ⟨‹_›, rfl⟩
  · exact .inr ⟨Nat.lt_of_not_le ‹_›, rfl⟩

theorem State.memWrite_cases (s : State) (pc addr w : Word) :
    (24577 ≤ addr.toNat ∧ s.memWrite pc addr w = .error (.addressRange .write pc addr)) ∨
    (addr.toNat < 24577 ∧ s.memWrite pc addr w = .ok { s with mem := Memory.write s.mem addr.toNat w }) := by
  unfold State.memWrite
  split
  · exact .inl ⟨‹_›, rfl⟩
  · exact .inr ⟨Nat.lt_of_not_le ‹_›, rfl⟩

theorem State.operand_register (s : State) : s.operand false = .ok s.a := rfl

theorem State.operand_memory (s : State) : s.operand true = s.memRead s.pc s.a := rfl

theorem isScreenAddress_iff (addr : Word) :
    isScreenAddress addr = true ↔ 16384 ≤ addr.toNat ∧ addr.toNat ≤ 24575 := by
  simp only [isScreenAddress, Bool.and_eq_true, decide_eq_true_eq]
  simp only [Config.screenBase, Config.screenWords]
  omega

/-- Phase 4 names every field (41_compute_instruction.md R176, R181, R182). -/
theorem State.commit_eq (s : State) (dest : Dest) (jump : Jump) (r : Word) :
    s.commit dest jump r =
      { s with
        d := if dest.d then r else s.d
        a := if dest.a then r else s.a
        pc := if taken jump r then (if dest.a then r else s.a) else s.pc + 1
        output := some ⟨dest.m, r, s.a⟩ } := by
  obtain ⟨da, dd, dm⟩ := dest
  cases da <;> cases dd <;> rfl

/-- The caller's part on an output (41_compute_instruction.md R183, R184). -/
theorem State.applyOutput_some (s : State) (pc : Word) (o : CpuOutput) (h : s.output = some o) :
    (o.writePending = false ∧ s.applyOutput pc = .ok { s with output := none }) ∨
    (o.writePending = true ∧ 24577 ≤ o.targetAddress.toNat ∧
      s.applyOutput pc = .error (.addressRange .write pc o.targetAddress)) ∨
    (o.writePending = true ∧ o.targetAddress.toNat < 24577 ∧
      s.applyOutput pc = .ok { s with
        output := none
        mem := Memory.write s.mem o.targetAddress.toNat o.aluResult
        screen := if isScreenAddress o.targetAddress then s.screen ++ [⟨o.aluResult, o.targetAddress⟩]
          else s.screen }) := by
  unfold State.applyOutput
  rw [h]
  dsimp only
  cases o.writePending
  · exact .inl ⟨rfl, by simp [State.setOutput]⟩
  · refine .inr ?_
    rcases State.memWrite_cases (s.setOutput none) pc o.targetAddress o.aluResult with ⟨hr, he⟩ | ⟨hr, he⟩
    · exact .inl ⟨rfl, hr, by simp [he]⟩
    · refine .inr ⟨rfl, hr, ?_⟩
      cases isScreenAddress o.targetAddress <;> simp [he, State.present]

/-- A compute instruction whose operand is `y` and whose store, if any, is in range completes; the next state is named
in full (41_compute_instruction.md R185). -/
theorem compute_next {c : Comp} {dest : Dest} {jump : Jump} {s : State} {y : Word}
    (hy : s.operand c.selector = .ok y) (hm : dest.m = true → s.a.toNat < 24577) :
    compute c dest jump s = .next
      { s with
        d := if dest.d then alu c s.d y else s.d
        a := if dest.a then alu c s.d y else s.a
        pc := if taken jump (alu c s.d y) then (if dest.a then alu c s.d y else s.a) else s.pc + 1
        output := none
        mem := if dest.m then Memory.write s.mem s.a.toNat (alu c s.d y) else s.mem
        screen := if dest.m && isScreenAddress s.a then s.screen ++ [⟨alu c s.d y, s.a⟩] else s.screen } := by
  unfold compute State.executeCompute
  rw [hy]
  dsimp only
  rcases State.applyOutput_some (s.commit dest jump (alu c s.d y)) s.pc ⟨dest.m, alu c s.d y, s.a⟩
      (by rw [State.commit_eq]) with ⟨hp, he⟩ | ⟨hp, hr, he⟩ | ⟨hp, hr, he⟩
  · rw [he]
    simp only [State.commit_eq] at hp ⊢
    simp [hp]
  · exact absurd (hm hp) (Nat.not_lt.2 hr)
  · rw [he]
    simp only [State.commit_eq] at hp ⊢
    simp [hp]

/-- A compute instruction stops where its operand fetch does (60_exceptions.md R273). -/
theorem compute_operand_fault {c : Comp} {dest : Dest} {jump : Jump} {s : State} {f : Fault}
    (hy : s.operand c.selector = .error f) : compute c dest jump s = .fault f := by
  simp [compute, State.executeCompute, hy]

/-- A compute instruction stops where its store does (60_exceptions.md R274). -/
theorem compute_store_fault {c : Comp} {dest : Dest} {jump : Jump} {s : State} {y : Word}
    (hy : s.operand c.selector = .ok y) (hm : dest.m = true) (ha : 24577 ≤ s.a.toNat) :
    compute c dest jump s = .fault (.addressRange .write s.pc s.a) := by
  unfold compute State.executeCompute
  rw [hy]
  dsimp only
  rcases State.applyOutput_some (s.commit dest jump (alu c s.d y)) s.pc ⟨dest.m, alu c s.d y, s.a⟩
      (by rw [State.commit_eq]) with ⟨hp, he⟩ | ⟨hp, hr, he⟩ | ⟨hp, hr, he⟩
  · simp [hm] at hp
  · rw [he]
  · exact absurd hr (Nat.not_lt.2 ha)

/-- What a compute instruction can do: complete with its operand `y`, or stop at its operand fetch, or at its store. -/
theorem compute_cases (c : Comp) (dest : Dest) (jump : Jump) (s : State) :
    (∃ y, s.operand c.selector = .ok y ∧ (dest.m = true → s.a.toNat < 24577)) ∨
    (c.selector = true ∧ 24577 ≤ s.a.toNat ∧ compute c dest jump s = .fault (.addressRange .read s.pc s.a)) ∨
    (c.selector = false ∧ dest.m = true ∧ 24577 ≤ s.a.toNat ∧
      compute c dest jump s = .fault (.addressRange .write s.pc s.a)) := by
  cases hsel : c.selector
  · by_cases h : dest.m = true ∧ 24577 ≤ s.a.toNat
    · exact .inr (.inr ⟨rfl, h.1, h.2,
        compute_store_fault (y := s.a) (by rw [hsel, State.operand_register]) h.1 h.2⟩)
    · exact .inl ⟨s.a, s.operand_register, fun hm => Nat.lt_of_not_le fun ha => h ⟨hm, ha⟩⟩
  · rcases s.memRead_cases s.pc s.a with ⟨hr, he⟩ | ⟨hr, he⟩
    · exact .inr (.inl ⟨rfl, hr, compute_operand_fault (by rw [hsel, State.operand_memory, he])⟩)
    · exact .inl ⟨_, by rw [State.operand_memory, he], fun _ => hr⟩

end Sys2Proof.Machine
end

