-- ==== Sys2Proof/Laws/Exec.lean ====
section
/-! SUPPORT. What an instruction and a step can do, each said once. -/

namespace Sys2Proof.Machine

/-- The meaning of a compute instruction is the common sequence on its computation. -/
theorem exec_compute (c : Comp) (dest : Dest) (jump : Jump) (s : State) :
    exec (c.instr dest jump) s = compute c dest jump s := by
  cases c <;> rfl

/-- What `exec` can answer: the address instruction always completes; a compute instruction completes, or stops with one
of the two range faults. -/
theorem exec_next_cases {i : Instr} {s t : State} (h : exec i s = .next t) :
    (∃ v, i = .addr v ∧
      t = { s with a := BitVec.setWidth 16 v, pc := s.pc + 1, output := none }) ∨
    (∃ c dest jump y, i = Comp.instr dest jump c ∧ s.operand c.selector = .ok y ∧
      (dest.m = true → s.a.toNat < 24577) ∧
      t = { s with
        d := if dest.d then alu c s.d y else s.d
        a := if dest.a then alu c s.d y else s.a
        pc := if taken jump (alu c s.d y) then (if dest.a then alu c s.d y else s.a) else s.pc + 1
        output := none
        mem := if dest.m then Memory.write s.mem s.a.toNat (alu c s.d y) else s.mem
        screen := if dest.m && isScreenAddress s.a then s.screen ++ [⟨alu c s.d y, s.a⟩] else s.screen }) := by
  rcases Instr.cases_form i with ⟨v, rfl⟩ | ⟨c, dest, jump, rfl⟩
  · refine .inl ⟨v, rfl, ?_⟩
    simpa [exec, execAddr, State.setA, State.setPc, State.setOutput] using h.symm
  · rw [exec_compute] at h
    rcases compute_cases c dest jump s with ⟨y, hy, hm⟩ | ⟨_, _, he⟩ | ⟨_, _, _, he⟩
    · rw [compute_next hy hm] at h
      exact .inr ⟨c, dest, jump, y, rfl, hy, hm, (Host.Outcome.next.inj h).symm⟩
    · rw [he] at h; cases h
    · rw [he] at h; cases h

/-- What a tick can answer with a next state: the fetch gave an instruction, and it completed. -/
theorem tick_next {s t : State} (h : tick s = .next t) : ∃ i, s.fetch = .ok i ∧ exec i s = .next t := by
  unfold tick at h
  split at h
  · cases h
  · exact ⟨_, ‹_›, h⟩

/-- The host's phase touches the keyboard word and its own tape only (20_memory.md R68). -/
theorem State.foldl_setKeyboardReg (codes : List Word) (s : State) :
    codes.foldl State.setKeyboardReg s =
      { s with mem := codes.foldl (fun m code => Memory.write m Config.kbdAddr code) s.mem } := by
  induction codes generalizing s with
  | nil => rfl
  | cons c codes ih => exact ih _

theorem State.hostPhase_eq (s : State) :
    s.hostPhase =
      { s with
        keys := s.keys.tail
        mem := s.nextKeys.foldl (fun m code => Memory.write m Config.kbdAddr code) s.mem } :=
  State.foldl_setKeyboardReg _ _

@[simp] theorem State.hostPhase_d (s : State) : s.hostPhase.d = s.d := by rw [State.hostPhase_eq]

@[simp] theorem State.hostPhase_a (s : State) : s.hostPhase.a = s.a := by rw [State.hostPhase_eq]

@[simp] theorem State.hostPhase_pc (s : State) : s.hostPhase.pc = s.pc := by rw [State.hostPhase_eq]

@[simp] theorem State.hostPhase_rom (s : State) : s.hostPhase.rom = s.rom := by rw [State.hostPhase_eq]

@[simp] theorem State.hostPhase_output (s : State) : s.hostPhase.output = s.output := by rw [State.hostPhase_eq]

@[simp] theorem State.hostPhase_screen (s : State) : s.hostPhase.screen = s.screen := by rw [State.hostPhase_eq]

@[simp] theorem State.hostPhase_keys (s : State) : s.hostPhase.keys = s.keys.tail := by rw [State.hostPhase_eq]

/-- A host that writes nothing leaves the state as it is. -/
theorem State.hostPhase_of_no_keys {s : State} (h : s.keys = []) : s.hostPhase = s := by
  rw [State.hostPhase_eq]
  cases s
  simp_all [State.nextKeys]

/-- A fetch of a loaded word reads it (20_memory.md R52). -/
theorem State.romRead_loaded {s : State} {pc w : Word} (hpc : pc.toNat ≤ 32767)
    (h : Store.lookup s.rom pc.toNat = some w) : s.romRead pc = .ok w := by
  unfold State.romRead
  rw [if_neg (by simp only [Config.romSize]; omega), h]

theorem Memory.wf_foldl_write {m : Store} (codes : List Word) (h : Memory.wf m = true) :
    Memory.wf (codes.foldl (fun m code => Memory.write m Config.kbdAddr code) m) = true := by
  induction codes generalizing m with
  | nil => exact h
  | cons c codes ih => exact ih (Memory.wf_write h (by decide))

end Sys2Proof.Machine
end

