-- ==== Sys2Proof/Laws/Loader.lean ====
section
/-! SUPPORT. The loader: the words of a binary image, and the ROM they make. -/

namespace Sys2Proof.Machine

theorem wordOfBytes_bytesOfWord (w : Word) : wordOfBytes (w.extractLsb' 8 8) (w.extractLsb' 0 8) = w := by
  apply BitVec.eq_of_getLsbD_eq
  intro i hi
  simp only [wordOfBytes, BitVec.getLsbD_append, BitVec.getLsbD_extractLsb']
  by_cases h : i < 8
  · simp [h]
  · simp [h, show i - 8 < 8 by omega, show 8 + (i - 8) = i by omega]

theorem toNat_wordOfBytes (hi lo : Byte) : (wordOfBytes hi lo).toNat = hi.toNat * 256 + lo.toNat := by
  rw [wordOfBytes, BitVec.toNat_append, ← Nat.shiftLeft_add_eq_or_of_lt lo.isLt, Nat.shiftLeft_eq]

/-- Word `i` of an image is made of its bytes `2i` and `2i + 1` (70_reset_and_hazards.md R316). -/
theorem getElem?_wordsOfImage (bytes : List Byte) (i : Nat) :
    (wordsOfImage bytes)[i]? =
      match bytes[2 * i]?, bytes[2 * i + 1]? with
      | some hi, some lo => some (wordOfBytes hi lo)
      | _, _ => none := by
  induction bytes using wordsOfImage.induct generalizing i with
  | case1 hi lo rest ih =>
    cases i with
    | zero => rfl
    | succ i => simp only [wordsOfImage, Nat.mul_add, List.getElem?_cons_succ, ih]
  | case2 bytes h =>
    match bytes, h with
    | [], _ => simp [wordsOfImage]
    | [b], _ => simp [wordsOfImage]
    | b :: b' :: rest, h => exact absurd rfl (h b b' rest)

theorem wordsOfImage_binaryImage (ws : List Word) : wordsOfImage (Asm.binaryImage ws) = ws := by
  induction ws with
  | nil => rfl
  | cons w ws ih =>
    simp only [Asm.binaryImage, List.flatMap_cons, bytesOfWord, List.cons_append, List.nil_append] at ih ⊢
    rw [wordsOfImage, ih, wordOfBytes_bytesOfWord]

theorem lookup_romFrom (ws : List Word) (k i : Nat) :
    Store.lookup (romFrom k ws) i = if k ≤ i then ws[i - k]? else none := by
  induction ws generalizing k with
  | nil => simp [romFrom, Store.lookup]
  | cons w ws ih =>
    simp only [romFrom, Store.lookup, ih]
    by_cases h : k = i
    · simp [h]
    · by_cases h2 : k ≤ i
      · simp [h, h2, show k + 1 ≤ i by omega, show i - k = (i - (k + 1)) + 1 by omega]
      · simp [h, h2, show ¬ k + 1 ≤ i by omega]

theorem romFrom_bounds (ws : List Word) (k : Nat) {c : WordCell} (h : c ∈ romFrom k ws) :
    k ≤ c.1 ∧ c.1 < k + ws.length := by
  induction ws generalizing k with
  | nil => cases h
  | cons w ws ih =>
    rcases List.mem_cons.1 h with rfl | h
    · simp
    · have := ih (k + 1) h
      simp only [List.length_cons]
      omega

theorem rising_romFrom (ws : List Word) (k : Nat) : Store.rising (romFrom k ws) = true := by
  induction ws generalizing k with
  | nil => rfl
  | cons w ws ih => exact (Store.rising_cons _ _).2 ⟨fun c hc => (romFrom_bounds ws (k + 1) hc).1, ih (k + 1)⟩

end Sys2Proof.Machine
end

