-- ==== Sys2Proof/Laws/PerInstr.lean ====
section
/-! SUPPORT. One lemma per instruction: its word is one of the well-formed words of 30_encoding.md R103. -/

namespace Sys2Proof.Laws.EncodesLegal

/-- The encoder's word for the instruction is well formed (30_encoding.md R103, R111). -/
def Statement (i : Instr) : Prop := Word.wellFormed (encode i) = true

/-- A word that the compute encoder makes is well formed, for one computation at every mask. -/
theorem encodeC_legal (c : Comp) (dest : Dest) (jump : Jump) : Word.wellFormed (encodeC dest c jump) = true := by
  obtain ⟨a, d, m⟩ := dest
  obtain ⟨n, z, p⟩ := jump
  cases c <;> revert a d m n z p <;> decide

theorem addr (value : Addr15) : Statement (.addr value) := by
  have h : (encodeA value.toNat).getLsbD 15 = false := by
    rw [encodeA, Nat.mod_eq_of_lt value.isLt, BitVec.getLsbD_ofNat]
    simpa using Nat.testBit_lt_two_pow value.isLt
  simp only [Statement, encode, Instr.form, Word.wellFormed, Word.isAddress, h, Bool.not_false, Bool.true_or]

theorem zero (dest : Dest) (jump : Jump) : Statement (.zero dest jump) := encodeC_legal .zero dest jump
theorem one (dest : Dest) (jump : Jump) : Statement (.one dest jump) := encodeC_legal .one dest jump
theorem negOne (dest : Dest) (jump : Jump) : Statement (.negOne dest jump) := encodeC_legal .negOne dest jump
theorem regD (dest : Dest) (jump : Jump) : Statement (.regD dest jump) := encodeC_legal .regD dest jump
theorem regA (dest : Dest) (jump : Jump) : Statement (.regA dest jump) := encodeC_legal .regA dest jump
theorem notD (dest : Dest) (jump : Jump) : Statement (.notD dest jump) := encodeC_legal .notD dest jump
theorem notA (dest : Dest) (jump : Jump) : Statement (.notA dest jump) := encodeC_legal .notA dest jump
theorem negD (dest : Dest) (jump : Jump) : Statement (.negD dest jump) := encodeC_legal .negD dest jump
theorem negA (dest : Dest) (jump : Jump) : Statement (.negA dest jump) := encodeC_legal .negA dest jump
theorem incD (dest : Dest) (jump : Jump) : Statement (.incD dest jump) := encodeC_legal .incD dest jump
theorem incA (dest : Dest) (jump : Jump) : Statement (.incA dest jump) := encodeC_legal .incA dest jump
theorem decD (dest : Dest) (jump : Jump) : Statement (.decD dest jump) := encodeC_legal .decD dest jump
theorem decA (dest : Dest) (jump : Jump) : Statement (.decA dest jump) := encodeC_legal .decA dest jump
theorem addDA (dest : Dest) (jump : Jump) : Statement (.addDA dest jump) := encodeC_legal .addDA dest jump
theorem subDA (dest : Dest) (jump : Jump) : Statement (.subDA dest jump) := encodeC_legal .subDA dest jump
theorem subAD (dest : Dest) (jump : Jump) : Statement (.subAD dest jump) := encodeC_legal .subAD dest jump
theorem andDA (dest : Dest) (jump : Jump) : Statement (.andDA dest jump) := encodeC_legal .andDA dest jump
theorem orDA (dest : Dest) (jump : Jump) : Statement (.orDA dest jump) := encodeC_legal .orDA dest jump
theorem memM (dest : Dest) (jump : Jump) : Statement (.memM dest jump) := encodeC_legal .memM dest jump
theorem notM (dest : Dest) (jump : Jump) : Statement (.notM dest jump) := encodeC_legal .notM dest jump
theorem negM (dest : Dest) (jump : Jump) : Statement (.negM dest jump) := encodeC_legal .negM dest jump
theorem incM (dest : Dest) (jump : Jump) : Statement (.incM dest jump) := encodeC_legal .incM dest jump
theorem decM (dest : Dest) (jump : Jump) : Statement (.decM dest jump) := encodeC_legal .decM dest jump
theorem addDM (dest : Dest) (jump : Jump) : Statement (.addDM dest jump) := encodeC_legal .addDM dest jump
theorem subDM (dest : Dest) (jump : Jump) : Statement (.subDM dest jump) := encodeC_legal .subDM dest jump
theorem subMD (dest : Dest) (jump : Jump) : Statement (.subMD dest jump) := encodeC_legal .subMD dest jump
theorem andDM (dest : Dest) (jump : Jump) : Statement (.andDM dest jump) := encodeC_legal .andDM dest jump
theorem orDM (dest : Dest) (jump : Jump) : Statement (.orDM dest jump) := encodeC_legal .orDM dest jump

end Sys2Proof.Laws.EncodesLegal
end

