-- ==== Sys2Proof/Tests/Slice0.lean ====
section
/-! SUPPORT. Tests: expected results are those of spec/ (the file and section are named at each group). -/

namespace Sys2Proof.Tests

open Sys2Proof.Machine

/-- A state with an instruction word at `PC`. -/
def at_ (d a pc w : Word) (mem : Store := []) : State :=
  { State.reset with d := d, a := a, pc := pc, rom := [(pc.toNat, w)], mem := mem }

/-- The next state of an outcome. -/
def next? : Host.Outcome State Fault Refusal → Option State
  | .next t => some t
  | _ => none

/-- The fault of an outcome. -/
def fault? : Host.Outcome State Fault Refusal → Option Fault
  | .fault f => some f
  | _ => none

/-- The registers after one step: `D`, `A`, `PC`. -/
def regs (s : State) : Option (Word × Word × Word) := (next? (step s)).map (fun t => (t.d, t.a, t.pc))

/-- The data-memory words at some addresses after one step. -/
def words (addrs : List Nat) (s : State) : Option (List Word) := (next? (step s)).map (fun t => addrs.map t.word)

def noDest : Dest := ⟨false, false, false⟩
def toM : Dest := ⟨false, false, true⟩
def toD : Dest := ⟨false, true, false⟩
def noJump : Jump := ⟨false, false, false⟩
def jmp : Jump := ⟨true, true, true⟩

/-! ### Well-formedness: an ill-formed term for each check -/

theorem test_bad_padding_is_ill_formed : Word.wellFormed 0xA000 = false := by decide
theorem test_bad_comp_is_ill_formed : Word.wellFormed 0xFA80 = false := by decide
theorem test_address_word_is_well_formed : Word.wellFormed 0x7FFF = true := by decide
theorem test_literal_65536_is_ill_formed : (AsmOperand.literal 65536).wellFormed = false := by decide
theorem test_empty_symbol_is_ill_formed : (AsmOperand.symbol []).wellFormed = false := by decide
theorem test_digit_symbol_is_ill_formed : (AsmOperand.symbol ['1', 'a']).wellFormed = false := by decide
theorem test_empty_label_is_ill_formed : (AsmLine.label []).wellFormed = false := by decide
theorem test_odd_image_is_ill_formed : imageWellFormed [0, 2, 0xEC] = false := by decide
theorem test_long_image_is_ill_formed (bytes : List Byte) (h : bytes.length = 65538) :
    imageWellFormed bytes = false := by
  unfold imageWellFormed
  rw [h]
  decide

/-! ### Decoding: the base word of every row (30_encoding.md R100, 95_test_vectors.md 2.2), and words with masks -/

theorem test_decode_addr : decode 0b0110000000000001#16 = .ok (.addr 24577) := by decide
theorem test_decode_zero : decode 0b1110101010000000#16 = .ok (.zero noDest noJump) := by decide
theorem test_decode_one : decode 0b1110111111000000#16 = .ok (.one noDest noJump) := by decide
theorem test_decode_negOne : decode 0b1110111010000000#16 = .ok (.negOne noDest noJump) := by decide
theorem test_decode_regD : decode 0b1110001100000000#16 = .ok (.regD noDest noJump) := by decide
theorem test_decode_regA : decode 0b1110110000000000#16 = .ok (.regA noDest noJump) := by decide
theorem test_decode_notD : decode 0b1110001101000000#16 = .ok (.notD noDest noJump) := by decide
theorem test_decode_notA : decode 0b1110110001000000#16 = .ok (.notA noDest noJump) := by decide
theorem test_decode_negD : decode 0b1110001111000000#16 = .ok (.negD noDest noJump) := by decide
theorem test_decode_negA : decode 0b1110110011000000#16 = .ok (.negA noDest noJump) := by decide
theorem test_decode_incD : decode 0b1110011111000000#16 = .ok (.incD noDest noJump) := by decide
theorem test_decode_incA : decode 0b1110110111000000#16 = .ok (.incA noDest noJump) := by decide
theorem test_decode_decD : decode 0b1110001110000000#16 = .ok (.decD noDest noJump) := by decide
theorem test_decode_decA : decode 0b1110110010000000#16 = .ok (.decA noDest noJump) := by decide
theorem test_decode_addDA : decode 0b1110000010000000#16 = .ok (.addDA noDest noJump) := by decide
theorem test_decode_subDA : decode 0b1110010011000000#16 = .ok (.subDA noDest noJump) := by decide
theorem test_decode_subAD : decode 0b1110000111000000#16 = .ok (.subAD noDest noJump) := by decide
theorem test_decode_andDA : decode 0b1110000000000000#16 = .ok (.andDA noDest noJump) := by decide
theorem test_decode_orDA : decode 0b1110010101000000#16 = .ok (.orDA noDest noJump) := by decide
theorem test_decode_memM : decode 0b1111110000000000#16 = .ok (.memM noDest noJump) := by decide
theorem test_decode_notM : decode 0b1111110001000000#16 = .ok (.notM noDest noJump) := by decide
theorem test_decode_negM : decode 0b1111110011000000#16 = .ok (.negM noDest noJump) := by decide
theorem test_decode_incM : decode 0b1111110111000000#16 = .ok (.incM noDest noJump) := by decide
theorem test_decode_decM : decode 0b1111110010000000#16 = .ok (.decM noDest noJump) := by decide
theorem test_decode_addDM : decode 0b1111000010000000#16 = .ok (.addDM noDest noJump) := by decide
theorem test_decode_subDM : decode 0b1111010011000000#16 = .ok (.subDM noDest noJump) := by decide
theorem test_decode_subMD : decode 0b1111000111000000#16 = .ok (.subMD noDest noJump) := by decide
theorem test_decode_andDM : decode 0b1111000000000000#16 = .ok (.andDM noDest noJump) := by decide
theorem test_decode_orDM : decode 0b1111010101000000#16 = .ok (.orDM noDest noJump) := by decide
theorem test_decode_masks : decode 0b1111110010111101#16 = .ok (.decM ⟨true, true, true⟩ ⟨true, false, true⟩) := by
  decide
theorem test_decode_dest_order : decode 0b1110011111001000#16 = .ok (.incD toM noJump) := by decide
theorem test_decode_jump_order : decode 0b1110001100000001#16 = .ok (.regD noDest ⟨false, false, true⟩) := by decide
theorem test_decode_bytes : decodeBytes [0xEC, 0x10, 0x00] = some (.ok (.regA toD noJump), [0x00]) := by decide
theorem test_decode_table_word : decodeTableWord 16 0xEA87 = some (.zero noDest jmp) := by decide
theorem test_first_step_after_reset :
    (next? (step (State.reset.withFetchWord 16 0xEE90))).map (fun t => (t.d, t.pc)) = some (0xFFFF, 1) := by decide

/-! ### One step of every instruction (95_test_vectors.md 2.1 and 2.2: the result goes to `D`) -/

theorem test_addr_32767 : regs (at_ 7 0x1234 10 0x7FFF) = some (7, 0x7FFF, 11) := by decide
theorem test_addr_top : regs (at_ 7 0x1234 32767 0x0005) = some (7, 5, 32768) := by decide
theorem test_zero_0005_0003 : regs (at_ 0x0005 0x0003 7 0xEA90) = some (0x0000, 0x0003, 8) := by decide
theorem test_zero_8000_0001 : regs (at_ 0x8000 0x0001 7 0xEA90) = some (0x0000, 0x0001, 8) := by decide
theorem test_one_0005_0003 : regs (at_ 0x0005 0x0003 7 0xEFD0) = some (0x0001, 0x0003, 8) := by decide
theorem test_one_8000_0001 : regs (at_ 0x8000 0x0001 7 0xEFD0) = some (0x0001, 0x0001, 8) := by decide
theorem test_negOne_0005_0003 : regs (at_ 0x0005 0x0003 7 0xEE90) = some (0xFFFF, 0x0003, 8) := by decide
theorem test_negOne_8000_0001 : regs (at_ 0x8000 0x0001 7 0xEE90) = some (0xFFFF, 0x0001, 8) := by decide
theorem test_regD_0005_0003 : regs (at_ 0x0005 0x0003 7 0xE310) = some (0x0005, 0x0003, 8) := by decide
theorem test_regD_8000_0001 : regs (at_ 0x8000 0x0001 7 0xE310) = some (0x8000, 0x0001, 8) := by decide
theorem test_regA_0005_0003 : regs (at_ 0x0005 0x0003 7 0xEC10) = some (0x0003, 0x0003, 8) := by decide
theorem test_regA_8000_0001 : regs (at_ 0x8000 0x0001 7 0xEC10) = some (0x0001, 0x0001, 8) := by decide
theorem test_notD_0005_0003 : regs (at_ 0x0005 0x0003 7 0xE350) = some (0xFFFA, 0x0003, 8) := by decide
theorem test_notD_8000_8000 : regs (at_ 0x8000 0x8000 7 0xE350) = some (0x7FFF, 0x8000, 8) := by decide
theorem test_notA_0005_0003 : regs (at_ 0x0005 0x0003 7 0xEC50) = some (0xFFFC, 0x0003, 8) := by decide
theorem test_notA_8000_8000 : regs (at_ 0x8000 0x8000 7 0xEC50) = some (0x7FFF, 0x8000, 8) := by decide
theorem test_negD_0005_0003 : regs (at_ 0x0005 0x0003 7 0xE3D0) = some (0xFFFB, 0x0003, 8) := by decide
theorem test_negD_8000_8000 : regs (at_ 0x8000 0x8000 7 0xE3D0) = some (0x8000, 0x8000, 8) := by decide
theorem test_negA_0005_0003 : regs (at_ 0x0005 0x0003 7 0xECD0) = some (0xFFFD, 0x0003, 8) := by decide
theorem test_negA_8000_8000 : regs (at_ 0x8000 0x8000 7 0xECD0) = some (0x8000, 0x8000, 8) := by decide
theorem test_incD_0005_0003 : regs (at_ 0x0005 0x0003 7 0xE7D0) = some (0x0006, 0x0003, 8) := by decide
theorem test_incD_8000_0001 : regs (at_ 0x8000 0x0001 7 0xE7D0) = some (0x8001, 0x0001, 8) := by decide
theorem test_incA_0005_0003 : regs (at_ 0x0005 0x0003 7 0xEDD0) = some (0x0004, 0x0003, 8) := by decide
theorem test_incA_8000_0001 : regs (at_ 0x8000 0x0001 7 0xEDD0) = some (0x0002, 0x0001, 8) := by decide
theorem test_decD_0005_0003 : regs (at_ 0x0005 0x0003 7 0xE390) = some (0x0004, 0x0003, 8) := by decide
theorem test_decD_8000_0001 : regs (at_ 0x8000 0x0001 7 0xE390) = some (0x7FFF, 0x0001, 8) := by decide
theorem test_decA_0005_0003 : regs (at_ 0x0005 0x0003 7 0xEC90) = some (0x0002, 0x0003, 8) := by decide
theorem test_decA_8000_0001 : regs (at_ 0x8000 0x0001 7 0xEC90) = some (0x0000, 0x0001, 8) := by decide
theorem test_addDA_0005_0003 : regs (at_ 0x0005 0x0003 7 0xE090) = some (0x0008, 0x0003, 8) := by decide
theorem test_addDA_8000_8000 : regs (at_ 0x8000 0x8000 7 0xE090) = some (0x0000, 0x8000, 8) := by decide
theorem test_subDA_0005_0003 : regs (at_ 0x0005 0x0003 7 0xE4D0) = some (0x0002, 0x0003, 8) := by decide
theorem test_subDA_8000_0001 : regs (at_ 0x8000 0x0001 7 0xE4D0) = some (0x7FFF, 0x0001, 8) := by decide
theorem test_subAD_0005_0003 : regs (at_ 0x0005 0x0003 7 0xE1D0) = some (0xFFFE, 0x0003, 8) := by decide
theorem test_subAD_8000_0001 : regs (at_ 0x8000 0x0001 7 0xE1D0) = some (0x8001, 0x0001, 8) := by decide
theorem test_andDA_0005_0003 : regs (at_ 0x0005 0x0003 7 0xE010) = some (0x0001, 0x0003, 8) := by decide
theorem test_andDA_8000_0001 : regs (at_ 0x8000 0x0001 7 0xE010) = some (0x0000, 0x0001, 8) := by decide
theorem test_orDA_0005_0003 : regs (at_ 0x0005 0x0003 7 0xE550) = some (0x0007, 0x0003, 8) := by decide
theorem test_orDA_8000_0001 : regs (at_ 0x8000 0x0001 7 0xE550) = some (0x8001, 0x0001, 8) := by decide
theorem test_memM_0005_0003 : regs (at_ 0x0005 100 7 0xFC10 [(100, 0x0003)]) = some (0x0003, 100, 8) := by decide
theorem test_memM_8000_0001 : regs (at_ 0x8000 100 7 0xFC10 [(100, 0x0001)]) = some (0x0001, 100, 8) := by decide
theorem test_notM_0005_0003 : regs (at_ 0x0005 100 7 0xFC50 [(100, 0x0003)]) = some (0xFFFC, 100, 8) := by decide
theorem test_notM_8000_8000 : regs (at_ 0x8000 100 7 0xFC50 [(100, 0x8000)]) = some (0x7FFF, 100, 8) := by decide
theorem test_negM_0005_0003 : regs (at_ 0x0005 100 7 0xFCD0 [(100, 0x0003)]) = some (0xFFFD, 100, 8) := by decide
theorem test_negM_8000_8000 : regs (at_ 0x8000 100 7 0xFCD0 [(100, 0x8000)]) = some (0x8000, 100, 8) := by decide
theorem test_incM_0005_0003 : regs (at_ 0x0005 100 7 0xFDD0 [(100, 0x0003)]) = some (0x0004, 100, 8) := by decide
theorem test_incM_8000_0001 : regs (at_ 0x8000 100 7 0xFDD0 [(100, 0x0001)]) = some (0x0002, 100, 8) := by decide
theorem test_decM_0005_0003 : regs (at_ 0x0005 100 7 0xFC90 [(100, 0x0003)]) = some (0x0002, 100, 8) := by decide
theorem test_decM_8000_0001 : regs (at_ 0x8000 100 7 0xFC90 [(100, 0x0001)]) = some (0x0000, 100, 8) := by decide
theorem test_addDM_0005_0003 : regs (at_ 0x0005 100 7 0xF090 [(100, 0x0003)]) = some (0x0008, 100, 8) := by decide
theorem test_addDM_8000_8000 : regs (at_ 0x8000 100 7 0xF090 [(100, 0x8000)]) = some (0x0000, 100, 8) := by decide
theorem test_subDM_0005_0003 : regs (at_ 0x0005 100 7 0xF4D0 [(100, 0x0003)]) = some (0x0002, 100, 8) := by decide
theorem test_subDM_8000_0001 : regs (at_ 0x8000 100 7 0xF4D0 [(100, 0x0001)]) = some (0x7FFF, 100, 8) := by decide
theorem test_subMD_0005_0003 : regs (at_ 0x0005 100 7 0xF1D0 [(100, 0x0003)]) = some (0xFFFE, 100, 8) := by decide
theorem test_subMD_8000_0001 : regs (at_ 0x8000 100 7 0xF1D0 [(100, 0x0001)]) = some (0x8001, 100, 8) := by decide
theorem test_andDM_0005_0003 : regs (at_ 0x0005 100 7 0xF010 [(100, 0x0003)]) = some (0x0001, 100, 8) := by decide
theorem test_andDM_8000_0001 : regs (at_ 0x8000 100 7 0xF010 [(100, 0x0001)]) = some (0x0000, 100, 8) := by decide
theorem test_orDM_0005_0003 : regs (at_ 0x0005 100 7 0xF550 [(100, 0x0003)]) = some (0x0007, 100, 8) := by decide
theorem test_orDM_8000_0001 : regs (at_ 0x8000 100 7 0xF550 [(100, 0x0001)]) = some (0x8001, 100, 8) := by decide

/-! ### Destinations (95_test_vectors.md 2.3) -/

/-- The start state of the destination vectors. -/
def destStart (w : Word) : State := at_ 5 100 7 w [(6, 99), (100, 40)]

theorem test_dest_none : regs (destStart 0xE7C0) = some (5, 100, 8) ∧
    words [100, 6] (destStart 0xE7C0) = some [40, 99] := by decide
theorem test_dest_m : regs (destStart 0xE7C8) = some (5, 100, 8) ∧
    words [100, 6] (destStart 0xE7C8) = some [6, 99] := by decide
theorem test_dest_d : regs (destStart 0xE7D0) = some (6, 100, 8) ∧
    words [100, 6] (destStart 0xE7D0) = some [40, 99] := by decide
theorem test_dest_md : regs (destStart 0xE7D8) = some (6, 100, 8) ∧
    words [100, 6] (destStart 0xE7D8) = some [6, 99] := by decide
theorem test_dest_a : regs (destStart 0xE7E0) = some (5, 6, 8) ∧
    words [100, 6] (destStart 0xE7E0) = some [40, 99] := by decide
theorem test_dest_am : regs (destStart 0xE7E8) = some (5, 6, 8) ∧
    words [100, 6] (destStart 0xE7E8) = some [6, 99] := by decide
theorem test_dest_ad : regs (destStart 0xE7F0) = some (6, 6, 8) ∧
    words [100, 6] (destStart 0xE7F0) = some [40, 99] := by decide
theorem test_dest_amd : regs (destStart 0xE7F8) = some (6, 6, 8) ∧
    words [100, 6] (destStart 0xE7F8) = some [6, 99] := by decide
theorem test_am_reads_and_writes_old_a : regs (at_ 0 100 1 0xFCA8 [(6, 99), (100, 7)]) = some (0, 6, 2) ∧
    words [100, 6] (at_ 0 100 1 0xFCA8 [(6, 99), (100, 7)]) = some [6, 99] := by decide
theorem test_keyboard_word_is_ordinary : regs (at_ 0xAAAA 24576 0 0xFDD8 [(24576, 65)]) = some (66, 24576, 1) ∧
    words [24576] (at_ 0xAAAA 24576 0 0xFDD8 [(24576, 65)]) = some [66] := by decide

/-! ### Jumps (95_test_vectors.md 2.4) -/

/-- The program counters after `D;<jump>` for `D` positive, zero, negative, `0x8000`, `0x7FFF`. -/
def jumpRow (w : Word) : List (Option Word) :=
  [0x0001, 0x0000, 0xFFFF, 0x8000, 0x7FFF].map (fun x => (regs (at_ x 100 7 w)).map (fun r => r.2.2))

theorem test_jump_none : jumpRow 0xE300 = [some 8, some 8, some 8, some 8, some 8] := by decide
theorem test_jump_jgt : jumpRow 0xE301 = [some 100, some 8, some 8, some 8, some 100] := by decide
theorem test_jump_jeq : jumpRow 0xE302 = [some 8, some 100, some 8, some 8, some 8] := by decide
theorem test_jump_jge : jumpRow 0xE303 = [some 100, some 100, some 8, some 8, some 100] := by decide
theorem test_jump_jlt : jumpRow 0xE304 = [some 8, some 8, some 100, some 100, some 8] := by decide
theorem test_jump_jne : jumpRow 0xE305 = [some 100, some 8, some 100, some 100, some 100] := by decide
theorem test_jump_jle : jumpRow 0xE306 = [some 8, some 100, some 100, some 100, some 8] := by decide
theorem test_jump_jmp : jumpRow 0xE307 = [some 100, some 100, some 100, some 100, some 100] := by decide
theorem test_jump_to_new_a : regs (at_ 5 100 3 0xE327) = some (5, 5, 5) := by decide
theorem test_jump_amd : regs (at_ 0x7FFE 200 1 0xE7F9) = some (0x7FFF, 0x7FFF, 32767) := by decide
theorem test_jump_out_of_rom : regs (at_ 0 0xFFFF 3 0xEA87) = some (0, 0xFFFF, 65535) := by decide

/-! ### Faults (95_test_vectors.md 2.5) -/

theorem test_fault_f1 : fault? (step (at_ 1 24577 1 0xEA88)) = some (.addressRange .write 1 24577) := by decide
theorem test_fault_f2 : fault? (step (at_ 1 24577 1 0xFC10)) = some (.addressRange .read 1 24577) := by decide
theorem test_fault_f3 : fault? (step (at_ 24577 65535 65535 0)) = some (.romRange 65535) := by decide
theorem test_fault_f4 : fault? (step (at_ 1 7 1 0xA000)) = some (.badPadding 1 0xA000) := by decide
theorem test_fault_f5 : fault? (step (at_ 1 7 1 0xFA80)) = some (.invalidComputation 1 0xFA80) := by decide
theorem test_fault_f6 : fault? (step (at_ 1 28672 1 0xFA80)) = some (.addressRange .read 1 28672) := by decide
theorem test_fault_f7 : fault? (step (at_ 1 28672 1 0xE040)) = some (.invalidComputation 1 0xE040) := by decide
theorem test_fault_f8 : fault? (step (at_ 1 28672 1 0x9FFF)) = some (.badPadding 1 0x9FFF) := by decide
theorem test_fault_f9 : words [24576] (at_ 0 24576 1 0xEFC8) = some [1] := by decide
theorem test_fault_f10 : fault? (step (at_ 1 7 1 0xC000)) = some (.badPadding 1 0xC000) := by decide
theorem test_fault_f11 : fault? (step State.reset) = some (.romUnloaded 0) := by decide

/-! ### Screen, keyboard, loader (95_test_vectors.md 2.6, 2.7) -/

theorem test_screen_event : (next? (step (at_ 65 16384 3 0xE308))).map State.screen = some [⟨65, 16384⟩] := by decide
theorem test_last_screen_word : (next? (step (at_ 65 24575 3 0xE308))).map State.screen = some [⟨65, 24575⟩] := by decide
theorem test_no_screen_event_below : (next? (step (at_ 65 16383 3 0xE308))).map State.screen = some [] := by decide
theorem test_no_screen_event_keyboard : (next? (step (at_ 65 24576 3 0xE308))).map State.screen = some [] := by decide
theorem test_pixels : (List.range 16).filter (fun i => ({ State.reset with mem := [(16384, 0x8001)] } : State).pixelLit 16384 i)
    = [0, 15] := by decide
theorem test_key_seen : regs { at_ 0 24576 1 0xFC10 with keys := [[65]] } = some (65, 24576, 2) := by decide
theorem test_last_key_wins : regs { at_ 7 24576 1 0xFC10 with keys := [[65, 0]] } = some (0, 24576, 2) := by decide
theorem test_load_big_endian : ((loadImage [0xEC, 0x10, 0x00, 0x02] State.reset).toOption).map State.rom
    = some [(0, 0xEC10), (1, 0x0002)] := by decide
theorem test_load_odd : loadImage [1, 2, 3] State.reset = .error (.imageLoad 3) := by decide
theorem test_launch : ((launch [0x00, 0x02] 0xAAAA 0x5555 [] []).toOption).map (fun s => (s.d, s.a, s.pc))
    = some (0xAAAA, 0x5555, 0) := by decide

/-! ### Assembler (95_test_vectors.md 2.6) -/

/-- The word of a line by the table at construction. -/
def wordOf (line : Text) : Option Word := ((Asm.encodeLine 1 Asm.SymbolTable.initial line).toOption).map Prod.fst

/-- The error of a line by the table at construction. -/
def errorOf (line : Text) : Option Asm.AsmError :=
  match Asm.encodeLine 1 Asm.SymbolTable.initial line with
  | .error e => some e
  | .ok _ => none

theorem test_asm_at_32768 : wordOf ['@', '3', '2', '7', '6', '8'] = some 0x0000 := by decide
theorem test_asm_at_40000 : wordOf ['@', '4', '0', '0', '0', '0'] = some 0x1C40 := by decide
theorem test_asm_at_65535 : wordOf ['@', '6', '5', '5', '3', '5'] = some 0x7FFF := by decide
theorem test_asm_at_kbd : wordOf ['@', 'K', 'B', 'D'] = some 0x6000 := by decide
theorem test_asm_at_that : wordOf ['@', 'T', 'H', 'A', 'T'] = some 0x0004 := by decide
theorem test_asm_amd : wordOf ['A', 'M', 'D', '=', 'D', '|', 'M', ';', 'J', 'M', 'P'] = some 0xF57F := by decide
theorem test_asm_d_and_a : wordOf ['D', '&', 'A'] = some 0xE000 := by decide
theorem test_asm_new_variable : wordOf ['@', 's', 'p'] = some 0x0010 := by decide
theorem test_asm_empty_symbol : errorOf ['@'] = some (.assemble 1) := by decide
theorem test_asm_at_65536 : errorOf ['@', '6', '5', '5', '3', '6'] = some (.outsideSpec 1) := by decide
theorem test_asm_mixed : errorOf ['@', '1', '2', 'a', 'b'] = some (.assemble 1) := by decide
theorem test_asm_dm : errorOf ['D', 'M', '=', '1'] = some (.assemble 1) := by decide
theorem test_asm_commuted : errorOf ['D', '=', 'A', '+', 'D'] = some (.assemble 1) := by decide
theorem test_asm_lower_case : errorOf ['0', ';', 'j', 'm', 'p'] = some (.assemble 1) := by decide
theorem test_asm_no_comp : errorOf ['D', '='] = some (.assemble 1) := by decide
theorem test_asm_empty_dest : errorOf ['=', 'D'] = some (.assemble 1) := by decide
theorem test_asm_empty_jump : errorOf ['D', ';'] = some (.assemble 1) := by decide
theorem test_asm_unclosed_label : Asm.preprocess ['(', 'L', 'O', 'O', 'P'] = .error (.preprocess 1) := by decide
theorem test_asm_empty_label : Asm.preprocess ['(', ')'] = .error (.assemble 1) := by decide
theorem test_asm_cleaning : Asm.clean [' ', 'D', ' ', '=', ' ', 'M', ' ', ';', ' ', 'J', 'G', 'T', ' ', '/', '/', ' ', 'g', 'o'] = ['D', '=', 'M', ';', 'J', 'G', 'T'] := by decide
theorem test_asm_file : Asm.assemble
    ([' ', ' ', ' ', '@', 'R', '5', ' ', ' ', ' ', '/', '/', ' ', 'p', 'r', 'e', 'd', 'e', 'f', 'i', 'n', 'e', 'd'] ++ ['\n', '(', 'T', 'O', 'P', ')', '\n', '\t', '@', 'f', 'i', 'r', 's', 't', '\n', ' ', 'D', ' '] ++
     ['=', ' ', 'M', ' ', ';', ' ', 'J', 'G', 'T', '\r', '\n', '@', 'T', 'O', 'P', '2', '\n', '(', 'T', 'O', 'P', '2', ')', '\n', '0', ';', 'J', 'M', 'P']) =
    .ok [0x0005, 0x0010, 0xFC11, 0x0004, 0xEA87] := by decide
theorem test_asm_label_redeclared : Asm.assemble
    ['@', 'L', '\n', '(', 'L', ')', '\n', '@', 'L', '\n', '(', 'L', ')', '\n', 'D'] = .ok [2, 2, 0xE300] := by decide
/-- A label at index 32769 encodes as `EncodeA(32769)`, which is 0x0001 (30_encoding.md R109, R134). -/
theorem test_asm_label_past_rom : (Asm.encodeLine 1 (Asm.SymbolTable.initial.setLabel ['L'] 32769) ['@', 'L']).toOption.map
    Prod.fst = some 0x0001 := by decide
theorem test_print : Asm.printInstr (.decM ⟨true, true, true⟩ ⟨true, false, true⟩) =
    ['A', 'M', 'D', '=', 'M', '-', '1', ';', 'J', 'N', 'E'] := by decide
theorem test_print_addr : Asm.printInstr (.addr 32767) = ['@', '3', '2', '7', '6', '7'] := by decide
theorem test_text_image : Asm.textImage [0x0002, 0xEC10] =
    ['0', '0', '0', '0', '0', '0', '0', '0', '0', '0', '0', '0', '0', '0', '1', '0'] ++
    ['\n', '1', '1', '1', '0', '1', '1', '0', '0', '0', '0', '0', '1', '0', '0', '0', '0'] := by decide
theorem test_binary_image : Asm.binaryImage [0x0002, 0xEC10] = [0x00, 0x02, 0xEC, 0x10] := by decide

/-! ### Witnesses: states and operands that meet the hypotheses of the statements -/

/-- `A` at the last data address, and a store. -/
theorem witness_store_in_range : StoreInRange toM (at_ 1 24576 0 0) := by intro _; decide

/-- No store, and `A` at its largest value. -/
theorem witness_no_store_in_range : StoreInRange noDest (at_ 1 65535 0 0) := by intro h; cases h

theorem witness_memory_operand_in_range : (at_ 1 24576 0 0).a.toNat ≤ 24576 := by decide

theorem witness_decode_inverts_encode : (32767 < 32768) ∧ decode 0x7FFF = .ok (.addr 32767) := by decide

theorem witness_address_word : (0x7FFF : Word).getLsbD 15 = false ∧ (at_ 7 0 32767 0).pc = 32767 := by decide

theorem witness_memory_operand_out_of_range :
    Comp.memM ∈ [Comp.memM, .notM, .negM, .incM, .decM, .addDM, .subDM, .subMD, .andDM, .orDM] ∧
      24577 ≤ (at_ 1 24577 0 0).a.toNat := by decide

theorem witness_invalid_word_fetched : (at_ 1 28672 1 0xFA80).FetchesWord 0xFA80 ∧
    decode 0xFA80 = .error .invalidComputation ∧ (0xFA80 : Word).getLsbD 12 = true ∧
      24577 ≤ (at_ 1 28672 1 0xFA80).a.toNat := by
  unfold State.FetchesWord
  decide

theorem witness_invalid_word_selector_zero : (at_ 1 28672 1 0xE040).FetchesWord 0xE040 ∧
    decode 0xE040 = .error .invalidComputation ∧ (0xE040 : Word).getLsbD 12 = false := by
  unfold State.FetchesWord
  decide

theorem witness_invalid_word_in_range : (at_ 1 24576 1 0xFA80).FetchesWord 0xFA80 ∧
    (0xFA80 : Word).getLsbD 12 = true ∧ (at_ 1 24576 1 0xFA80).a.toNat ≤ 24576 := by
  unfold State.FetchesWord
  decide

theorem witness_read_fault : exec (.memM noDest noJump) (at_ 1 24577 3 0) = .fault (.addressRange .read 3 24577) := rfl

theorem witness_store_fault : exec (.zero toM noJump) (at_ 1 24577 3 0) = .fault (.addressRange .write 3 24577) ∧
    Comp.zero.selector = false ∧ toM.m = true ∧ 24577 ≤ (at_ 1 24577 3 0).a.toNat := ⟨rfl, by decide⟩

/-- The state after `AMD=1;JMP` from a state whose `A` is a screen address: `PC`, `D`, `A`, the memory and the screen
log all change. -/
theorem witness_next_all_destinations :
    exec (.one ⟨true, true, true⟩ jmp) (at_ 0 16384 5 0) =
      .next { at_ 0 16384 5 0 with
        d := 1, a := 1, pc := 1, mem := [(16384, 1)], screen := [⟨1, 16384⟩] } := rfl

/-- The state after a computation with no destination and no jump. -/
theorem witness_next_no_destination :
    exec (.one noDest noJump) (at_ 0 16384 5 0) = .next { at_ 0 16384 5 0 with pc := 6 } := rfl

theorem witness_next_address : exec (.addr 9) (at_ 0 0 5 0) = .next { at_ 0 0 5 0 with a := 9, pc := 6 } := rfl

/-- A store at the last screen word and one just above the screen region. -/
theorem witness_screen_boundary :
    (at_ 0 24575 5 0).storesAt (.one toM noJump) = some 24575 ∧ (at_ 0 24576 5 0).storesAt (.one toM noJump) = some 24576 ∧
      (at_ 0 16383 5 0).storesAt (.one toM noJump) = some 16383 ∧
        (at_ 0 16384 5 0).storesAt (.one noDest noJump) = none := by decide

theorem witness_memory_frame : (at_ 0 5 5 0).storesAt (.one toM noJump) ≠ some 6 := by decide

theorem witness_execute_compute : (at_ 0 5 5 0).executeCompute .one toM noJump =
    .ok { at_ 0 5 5 0 with pc := 6, output := some ⟨true, 1, 5⟩ } := rfl

theorem witness_ignores_d : Comp.one ∈ [Comp.zero, .one, .negOne, .regA, .notA, .negA, .incA, .decA, .memM, .notM, .negM,
    .incM, .decM] := by decide

theorem witness_selector_zero : Comp.one.selector = false ∧ toM.m = true ∧
    exec (.one toM noJump) (at_ 0 16383 5 0) = .next { at_ 0 16383 5 0 with pc := 6, mem := [(16383, 1)] } :=
  ⟨rfl, rfl, rfl⟩

theorem witness_data_access_boundaries : 24577 ≤ (24577 : Word).toNat ∧ (24576 : Word).toNat ≤ 24576 := by decide

theorem witness_host_keys : ({ State.reset with keys := [[65, 66], [0]] } : State).keys = [65, 66] :: [[0]] ∧
    ({ State.reset with keys := [[], [0]] } : State).keys = [] :: [[0]] := ⟨rfl, rfl⟩

theorem witness_step_runs : (at_ 1 2 32767 0xEFD0).FetchesWord 0xEFD0 ∧ decode 0xEFD0 = .ok (.one toD noJump) ∧
    (at_ 1 2 32767 0xEFD0).keys = [] := by
  unfold State.FetchesWord
  decide

theorem witness_rom_range : 32768 ≤ (at_ 0 0 32768 0).pc.toNat ∧ step (at_ 0 0 32768 0) = .fault (.romRange 32768) :=
  ⟨by decide, rfl⟩

theorem witness_past_image : State.reset.pc.toNat ≤ 32767 ∧ Store.lookup State.reset.rom State.reset.pc.toNat = none := by
  decide

theorem witness_bad_padding : (at_ 0 65535 1 0xDFFF).FetchesWord 0xDFFF ∧ (0xDFFF : Word).getLsbD 15 = true ∧
    (0xDFFF : Word).extractLsb' 13 2 ≠ 0b11#2 := by
  unfold State.FetchesWord
  decide

theorem witness_invariant_step : (at_ 1 24576 1 0xE308).Inv ∧ ∃ t, step (at_ 1 24576 1 0xE308) = .next t ∧
    t.mem = [(24576, 1)] := ⟨⟨by decide, by decide, rfl, by intro e h; cases h⟩, _, rfl, rfl⟩

theorem witness_image_length : ([0x0002, 0xEC10] : List Word).length ≤ 32768 := by decide

/-- The second pair of bytes of an image, and the bytes past its last pair; the same for the words it stands for. -/
theorem witness_image_bytes : ([0x00, 0x02, 0xEC, 0x10] : List Byte)[2 * 1]? = some 0xEC ∧
    ([0x00, 0x02, 0xEC, 0x10] : List Byte)[2 * 1 + 1]? = some 0x10 ∧
    ([0x00, 0x02, 0xEC, 0x10] : List Byte).length ≤ 2 * 2 + 1 ∧
    ([0x0002, 0xEC10] : List Word)[1]? = some 0xEC10 := by decide

theorem witness_longest_image : (List.replicate 65536 (0 : Byte)).length % 2 = 0 ∧
    (List.replicate 65536 (0 : Byte)).length ≤ 65536 ∧ Memory.wf [(24576, 1)] = true := by
  simp only [List.length_replicate]
  decide

theorem witness_quiescent_first : QuiescentAt 4
    { State.reset with pc := 4, rom := [(4, 0x0004), (5, 0xEA87)] } := ⟨by decide, by decide, by decide, .inl rfl⟩

theorem witness_quiescent_second : QuiescentAt 32766
    { State.reset with pc := 32767, a := 32766, rom := [(32766, 0x7FFE), (32767, 0xEA87)] } :=
  ⟨by decide, by decide, by decide, .inr ⟨rfl, rfl⟩⟩

theorem witness_assembly : Asm.assemble ['@', 'x', '\n', 'D', '=', 'M'] = .ok [16, 0xFC10] := by decide

theorem witness_label :
    Asm.preprocessFrom 1 0 Asm.SymbolTable.initial ([['D']] ++ ['(', 'L', ')'] :: [['D']]) =
      .ok ([(1, ['D']), (3, ['D'])], Asm.SymbolTable.initial.setLabel ['L'] 1) ∧
    declaresLabel ['L'] ['(', 'L', ')'] = true ∧ declaresLabel ['L'] ['D'] = false := by decide

theorem witness_variable : Asm.SymbolTable.initial.lookup ['x'] = none ∧
    Asm.SymbolTable.initial.nextVar < 16384 := by decide

theorem witness_cleaning : Asm.stripComment ['D', '=', 'M', ' '] = ['D', '=', 'M', ' '] ∧
    ['D', '=', 'M', ' '].getLast? ≠ some '/' ∧ '/' ∉ ['D', '=', 'M', ' '] ∧ 'D' ∈ Asm.clean ['D', '=', 'M', ' '] := by decide

theorem witness_jump_tokens : Asm.jumpOfToken (some ['J', 'G', 'T']) = some ⟨false, false, true⟩ ∧
    Asm.jumpOfToken (some ['J', 'E', 'Q']) = some ⟨false, true, false⟩ ∧
    Asm.jumpOfToken (some ['J', 'G', 'E']) = some ⟨false, true, true⟩ ∧
    Asm.jumpOfToken (some ['J', 'L', 'T']) = some ⟨true, false, false⟩ ∧
    Asm.jumpOfToken (some ['J', 'N', 'E']) = some ⟨true, false, true⟩ ∧
    Asm.jumpOfToken (some ['J', 'L', 'E']) = some ⟨true, true, false⟩ ∧
    Asm.jumpOfToken (some ['J', 'M', 'P']) = some jmp := by decide

end Sys2Proof.Tests
end

/-! The state and its whole-machine rules (10_state.md): what every step keeps, who writes each register, what an
instruction learns of `D`, and the state at the start of a run. -/

namespace Sys2Proof.Machine

/-! ### Steps -/

/-- A step that answers a next state ran an instruction to it, from the state after the host's phase. -/
theorem step_next {s t : State} (h : step s = .next t) : ∃ i, exec i s.hostPhase = .next t := by
  obtain ⟨i, -, hi⟩ := tick_next h
  exact ⟨i, hi⟩

/-- What the ROM is after an instruction: no instruction has it as a destination (20_memory.md R77). -/
theorem exec_rom {i : Instr} {s t : State} (h : exec i s = .next t) : t.rom = s.rom := by
  rcases exec_next_cases h with ⟨v, -, rfl⟩ | ⟨c, dest, jump, y, -, -, -, rfl⟩ <;> rfl

/-- Settles O23: the ROM is out of the reach of the host's phase and of every instruction. -/
theorem stepNeverChangesRom : Obligations.StepNeverChangesRom := by
  intro s t h
  obtain ⟨i, hi⟩ := step_next h
  rw [exec_rom hi, State.hostPhase_rom]

/-! ### The invariant -/

/-- The keyboard address is an address of the data memory, so the host's writes keep its canonical form. -/
theorem State.Inv.hostPhase {s : State} (h : s.Inv) : s.hostPhase.Inv := by
  obtain ⟨hmem, hrom, hout, hscreen⟩ := h
  rw [State.hostPhase_eq]
  exact ⟨Memory.wf_foldl_write _ hmem, hrom, hout, hscreen⟩

theorem Memory.wf_ite_write {m : Store} {addr : Nat} {w : Word} {b : Bool} (hm : Memory.wf m = true)
    (ha : b = true → addr < Config.totalSize) : Memory.wf (if b then Memory.write m addr w else m) = true := by
  cases b with
  | false => exact hm
  | true => exact Memory.wf_write hm (ha rfl)

/-- The notification of a store is made only where the screen predicate holds, so the log stays one of screen
addresses (20_memory.md R65). -/
theorem screenOk_ite_append {evs : List ScreenEvent} {w addr : Word} {b : Bool}
    (h : ∀ e ∈ evs, isScreenAddress e.address = true) :
    ∀ e ∈ (if b && isScreenAddress addr then evs ++ [⟨w, addr⟩] else evs), isScreenAddress e.address = true := by
  intro e he
  split at he
  case isFalse => exact h e he
  case isTrue hb =>
    rcases List.mem_append.1 he with he | he
    · exact h e he
    · rw [List.mem_singleton.1 he]
      exact (Bool.and_eq_true_iff.1 hb).2

/-- An instruction consumes its output, stores in range or not at all, and notifies only of screen addresses. -/
theorem State.Inv.exec {i : Instr} {s t : State} (hs : s.Inv) (h : exec i s = .next t) : t.Inv := by
  obtain ⟨hmem, hrom, -, hscreen⟩ := hs
  rcases exec_next_cases h with ⟨v, -, rfl⟩ | ⟨c, dest, jump, y, -, -, hstore, rfl⟩
  · exact ⟨hmem, hrom, rfl, hscreen⟩
  · exact ⟨Memory.wf_ite_write hmem hstore, hrom, rfl, screenOk_ite_append hscreen⟩

/-- Settles O38: the host's phase keeps the invariant, and so does the instruction that the step then runs. -/
theorem stepKeepsInvariant : Obligations.StepKeepsInvariant := by
  intro s t hs h
  obtain ⟨i, hi⟩ := step_next h
  exact hs.hostPhase.exec hi

/-! ### The program counter and the writers of the registers -/

@[simp] theorem taken_none (r : Word) : taken ⟨false, false, false⟩ r = false := by simp [taken]

/-- `JMP`: every result is positive, zero or negative (43_destinations_and_jumps.md R257). -/
@[simp] theorem taken_all (r : Word) : taken ⟨true, true, true⟩ r = true := by
  cases hs : signFlag r <;> cases hz : zeroFlag r <;> simp [taken, hs, hz]

/-- A compute instruction that completes had its operand, and its store, if any, in range. -/
theorem operand_of_compute_next {c : Comp} {dest : Dest} {jump : Jump} {s t : State}
    (h : compute c dest jump s = .next t) :
    ∃ y, s.operand c.selector = .ok y ∧ (dest.m = true → s.a.toNat < 24577) := by
  rcases compute_cases c dest jump s with hy | ⟨-, -, he⟩ | ⟨-, -, -, he⟩
  · exact hy
  · rw [he] at h; cases h
  · rw [he] at h; cases h

/-- A compute instruction that completes leaves what its masks and the result of its computation say, every field of
the state named (41_compute_instruction.md R185). -/
theorem committed_of_exec {c : Comp} {dest : Dest} {jump : Jump} {s t : State}
    (h : exec (c.instr dest jump) s = .next t) :
    ∃ y, s.operand c.selector = .ok y ∧ Committed dest jump (alu c s.d y) s t := by
  rw [exec_compute] at h
  obtain ⟨y, hy, hm⟩ := operand_of_compute_next h
  rw [compute_next hy hm] at h
  obtain rfl := Host.Outcome.next.inj h
  refine ⟨y, hy, rfl, rfl, rfl, rfl, fun addr => ?_, ?_, rfl, rfl⟩
  · cases dest.m <;> simp [State.word, Memory.read_write]
  · simp [isScreenAddress_iff]

theorem eq_of_exec_addr {v : Addr15} {s t : State} (h : exec (.addr v) s = .next t) :
    t = { s with a := v.setWidth 16, pc := s.pc + 1, output := none } :=
  (Host.Outcome.next.inj h).symm

/-- Settles O19, by the two forms of instruction: only the jump condition chooses between the two addresses. -/
theorem pcIsNextOrNewA : Obligations.PcIsNextOrNewA := by
  intro i s t h
  refine ⟨?_, ?_, ?_, ?_⟩
  · rcases Instr.cases_form i with ⟨v, rfl⟩ | ⟨c, dest, jump, rfl⟩
    · exact .inl (by rw [eq_of_exec_addr h])
    · obtain ⟨y, -, ht⟩ := committed_of_exec h
      rw [ht.pc]
      exact (ite_eq_or_eq _ _ _).symm
  · rintro v rfl
    rw [eq_of_exec_addr h]
  · rintro c dest rfl
    obtain ⟨y, -, ht⟩ := committed_of_exec h
    simpa using ht.pc
  · rintro c dest rfl
    obtain ⟨y, -, ht⟩ := committed_of_exec h
    simpa using ht.pc

/-- Settles O20, by the two forms of instruction: a register that changed had its bit in the destination mask. -/
theorem registerWriters : Obligations.RegisterWriters := by
  intro i s t h
  refine ⟨?_, ?_, ?_⟩
  · intro hd
    rcases Instr.cases_form i with ⟨v, rfl⟩ | ⟨c, dest, jump, rfl⟩
    · exact absurd (by rw [eq_of_exec_addr h]) hd
    · obtain ⟨y, -, ht⟩ := committed_of_exec h
      exact ⟨c, dest, jump, rfl, by_contra fun hm => hd (by rw [ht.d, if_neg hm])⟩
  · intro ha
    refine (Instr.cases_form i).imp id ?_
    rintro ⟨c, dest, jump, rfl⟩
    obtain ⟨y, -, ht⟩ := committed_of_exec h
    exact ⟨c, dest, jump, rfl, by_contra fun hm => ha (by rw [ht.a, if_neg hm])⟩
  · rintro c dest jump rfl hma hmd
    obtain ⟨y, -, ht⟩ := committed_of_exec h
    rw [ht.d, ht.a, if_pos hmd, if_pos hma]

/-! ### What an instruction learns of `D` -/

/-- The result of a computation that does not name `D` does not depend on it (42_alu_computations.md R232). -/
theorem alu_ignores_d {c : Comp}
    (hc : c ∈ [Comp.zero, .one, .negOne, .regA, .notA, .negA, .incA, .decA, .memM, .notM, .negM, .incM, .decM])
    (x x' y : Word) : alu c x y = alu c x' y := by
  fin_cases hc <;> rfl

/-- A memory operand that was fetched has its address in range (20_memory.md R56). -/
theorem State.operand_memory_inRange {s : State} {y : Word} (h : s.operand true = .ok y) : s.a.toNat < 24577 := by
  rcases s.memRead_cases s.pc s.a with ⟨-, he⟩ | ⟨hr, -⟩
  · rw [State.operand_memory, he] at h
    cases h
  · exact hr

/-- Exactly when a compute instruction faults, and how: it depends on `A` and `PC` alone (60_exceptions.md R273, R274). -/
theorem compute_fault_iff {c : Comp} {dest : Dest} {jump : Jump} {s : State} {f : Fault} :
    compute c dest jump s = .fault f ↔ 24577 ≤ s.a.toNat ∧
      (c.selector = true ∧ f = .addressRange .read s.pc s.a ∨
        c.selector = false ∧ dest.m = true ∧ f = .addressRange .write s.pc s.a) := by
  rcases compute_cases c dest jump s with ⟨y, hy, hm⟩ | ⟨hsel, ha, he⟩ | ⟨hsel, hm, ha, he⟩
  · rw [compute_next hy hm]
    refine iff_of_false (by simp) ?_
    rintro ⟨ha, ⟨hsel, -⟩ | ⟨-, hstore, -⟩⟩
    · rw [hsel] at hy
      exact absurd (State.operand_memory_inRange hy) (Nat.not_lt.2 ha)
    · exact absurd (hm hstore) (Nat.not_lt.2 ha)
  · rw [he]
    constructor
    · intro h
      exact ⟨ha, .inl ⟨hsel, (Host.Outcome.fault.inj h).symm⟩⟩
    · rintro ⟨-, ⟨-, rfl⟩ | ⟨hsel', -⟩⟩
      · rfl
      · rw [hsel] at hsel'; cases hsel'
  · rw [he]
    constructor
    · intro h
      exact ⟨ha, .inr ⟨hsel, hm, (Host.Outcome.fault.inj h).symm⟩⟩
    · rintro ⟨-, ⟨hsel', -⟩ | ⟨-, -, rfl⟩⟩
      · rw [hsel] at hsel'; cases hsel'
      · rfl

/-- Settles O25: operand fetch, store address and faults do not look at `D`, and the results of the thirteen do not
either. -/
theorem thirteenComputationsIgnoreD : Obligations.ThirteenComputationsIgnoreD := by
  intro c dest jump s x hc
  simp only [exec_compute]
  constructor
  · intro t ht
    obtain ⟨y, hy, hm⟩ := operand_of_compute_next ht
    have hy' : State.operand { s with d := x } c.selector = .ok y := hy
    rw [compute_next hy hm] at ht
    obtain rfl := Host.Outcome.next.inj ht
    rw [compute_next hy' hm, alu_ignores_d hc x s.d y]
    cases dest.d <;> rfl
  · intro f hf
    have hrange := compute_fault_iff.1 hf
    exact compute_fault_iff.2 hrange

/-! ### The start of a run -/

/-- Settles O39. -/
theorem resetMeetsInvariant : Obligations.ResetMeetsInvariant :=
  ⟨rfl, rfl, rfl, by simp [State.reset]⟩

/-- Settles O40: nothing is listed in either store, and an unlisted memory word reads as `Params.ramFill`. -/
theorem resetValues : Obligations.ResetValues :=
  ⟨rfl, rfl, rfl, rfl, fun _ => rfl, fun _ => rfl, rfl⟩

theorem imageWellFormed_iff (bytes : List Byte) :
    imageWellFormed bytes = true ↔ bytes.length % 2 = 0 ∧ bytes.length ≤ Config.imageMaxBytes := by
  simp only [imageWellFormed, Bool.and_eq_true, beq_iff_eq, decide_eq_true_eq]

theorem length_wordsOfImage (bytes : List Byte) : (wordsOfImage bytes).length = bytes.length / 2 := by
  induction bytes using wordsOfImage.induct with
  | case1 hi lo rest ih => simp only [wordsOfImage, List.length_cons, ih]; omega
  | case2 bytes h =>
    match bytes, h with
    | [], _ => rfl
    | [b], _ => simp [wordsOfImage]
    | b :: b' :: rest, h => exact absurd rfl (h b b' rest)

/-- Words that fit make a ROM in canonical form. -/
theorem Rom.wf_romFrom {ws : List Word} (h : ws.length ≤ Config.romSize) : Rom.wf (romFrom 0 ws) = true := by
  simp only [Rom.wf, Bool.and_eq_true, List.all_eq_true, decide_eq_true_eq]
  refine ⟨rising_romFrom ws 0, fun c hc => ?_⟩
  obtain ⟨-, hlt⟩ := romFrom_bounds ws 0 hc
  omega

/-- The ROM made of the words of an image holds the image (70_reset_and_hazards.md R316). -/
theorem romHoldsImage_romFrom (bytes : List Byte) : RomHoldsImage bytes (romFrom 0 (wordsOfImage bytes)) where
  word i hi lo hhi hlo :=
    ⟨wordOfBytes hi lo, by simp [lookup_romFrom, getElem?_wordsOfImage, hhi, hlo], toNat_wordOfBytes hi lo⟩
  above i hi := by
    have hlen := length_wordsOfImage bytes
    simp only [lookup_romFrom, Nat.zero_le, if_true, Nat.sub_zero, List.getElem?_eq_none_iff]
    omega

/-- An image of a loadable length replaces the ROM and nothing else. -/
theorem loadImage_ok {bytes : List Byte} (heven : bytes.length % 2 = 0) (hmax : bytes.length ≤ 65536) (s : State) :
    loadImage bytes s = .ok { s with rom := romFrom 0 (wordsOfImage bytes) } :=
  if_pos ((imageWellFormed_iff bytes).2 ⟨heven, hmax⟩)

theorem Rom.wf_image {bytes : List Byte} (hmax : bytes.length ≤ 65536) :
    Rom.wf (romFrom 0 (wordsOfImage bytes)) = true :=
  Rom.wf_romFrom (by rw [length_wordsOfImage, Config.romSize]; omega)

/-- Settles O43: the loader touches the ROM alone, and the ROM of a loadable image is in canonical form. -/
theorem launchStartsTheRun : Obligations.LaunchStartsTheRun := by
  intro bytes d a ram keys heven hmax hram
  have hinv : State.Inv { State.reset with
      d := d, a := a, mem := ram, keys := keys, rom := romFrom 0 (wordsOfImage bytes) } :=
    ⟨hram, Rom.wf_image hmax, rfl, resetMeetsInvariant.screenOk⟩
  exact ⟨_, loadImage_ok heven hmax _, rfl, rfl, rfl, rfl, rfl, romHoldsImage_romFrom bytes, rfl, rfl, hinv⟩

end Sys2Proof.Machine

/-! The data memory, the screen and the keyboard word (20_memory.md): the range check of an access, what a store
changes and whom it tells, what an instruction learns of the memory, and the fault of a fetch outside the ROM. -/

namespace Sys2Proof.Machine

/-! ### Range checks -/

theorem State.memRead_inRange {s : State} {pc addr : Word} (h : addr.toNat ≤ 24576) :
    s.memRead pc addr = .ok (s.word addr.toNat) :=
  if_neg (Nat.not_le.2 (Nat.lt_succ_of_le h))

theorem State.memRead_outOfRange {s : State} {pc addr : Word} (h : 24577 ≤ addr.toNat) :
    s.memRead pc addr = .error (.addressRange .read pc addr) :=
  if_pos h

theorem State.memWrite_inRange {s : State} {pc addr v : Word} (h : addr.toNat ≤ 24576) :
    s.memWrite pc addr v = .ok { s with mem := Memory.write s.mem addr.toNat v } :=
  if_neg (Nat.not_le.2 (Nat.lt_succ_of_le h))

theorem State.memWrite_outOfRange {s : State} {pc addr v : Word} (h : 24577 ≤ addr.toNat) :
    s.memWrite pc addr v = .error (.addressRange .write pc addr) :=
  if_pos h

/-- A read looks at nothing of the data memory but the word at its address. -/
theorem State.memRead_congr {s t : State} {pc addr : Word} (h : t.word addr.toNat = s.word addr.toNat) :
    t.memRead pc addr = s.memRead pc addr := by
  rcases Nat.lt_or_ge addr.toNat 24577 with hr | hr
  · rw [State.memRead_inRange (Nat.le_of_lt_succ hr), State.memRead_inRange (Nat.le_of_lt_succ hr), h]
  · rw [State.memRead_outOfRange hr, State.memRead_outOfRange hr]

/-- The words of the data memory after one of them was replaced. -/
theorem State.word_write (s : State) (addr : Nat) (v : Word) (addr' : Nat) :
    State.word { s with mem := Memory.write s.mem addr v } addr' = if addr' = addr then v else s.word addr' :=
  Memory.read_write s.mem addr v addr'

/-- Settles O30, by the two sides of the range check: two addresses that differ as words differ as numbers, so the
write leaves every other word. -/
theorem dataAccessRangeCheck : Obligations.DataAccessRangeCheck := by
  intro s pc addr v
  refine ⟨fun h => ⟨State.memRead_outOfRange h, State.memWrite_outOfRange h⟩, fun h => ?_⟩
  refine ⟨State.memRead_inRange h, _, State.memWrite_inRange h, ?_, fun addr' hne => ?_, rfl, rfl, rfl, rfl, rfl⟩
  · rw [State.memRead_inRange h, State.word_write, if_pos rfl]
  · apply State.memRead_congr
    rw [State.word_write, if_neg (mt BitVec.eq_of_toNat_eq hne)]

/-- Settles O31. -/
theorem screenPredicateRange : Obligations.ScreenPredicateRange :=
  ⟨isScreenAddress_iff, by decide⟩

/-! ### Faults of an instruction -/

/-- The address instruction completes from every state (40_address_instruction.md R160). -/
theorem exec_addr (v : Addr15) (s : State) :
    exec (.addr v) s = .next { s with a := v.setWidth 16, pc := s.pc + 1, output := none } := rfl

/-- A compute instruction completes or faults. -/
theorem compute_ne_refused (c : Comp) (dest : Dest) (jump : Jump) (s : State) (ρ : Refusal) :
    compute c dest jump s ≠ .refused ρ := by
  rcases compute_cases c dest jump s with ⟨y, hy, hm⟩ | ⟨-, -, he⟩ | ⟨-, -, -, he⟩
  · simp [compute_next hy hm]
  · simp [he]
  · simp [he]

/-- An instruction that faults accessed the data memory at an `A` out of range (20_memory.md R58). -/
theorem exec_fault {i : Instr} {s : State} {f : Fault} (h : exec i s = .fault f) :
    24577 ≤ s.a.toNat ∧ (f = .addressRange .read s.pc s.a ∨ f = .addressRange .write s.pc s.a) := by
  rcases Instr.cases_form i with ⟨v, rfl⟩ | ⟨c, dest, jump, rfl⟩
  · rw [exec_addr] at h
    cases h
  · rw [exec_compute] at h
    obtain ⟨ha, hf⟩ := compute_fault_iff.1 h
    exact ⟨ha, hf.imp And.right fun hw => hw.2.2⟩

/-- Settles O15, by the two forms of instruction: the address instruction always completes, and a compute instruction
has no fault but those of its operand fetch and of its store. -/
theorem instructionsFaultOnlyOnRange : Obligations.InstructionsFaultOnlyOnRange := by
  refine ⟨fun i s f h => exec_fault h, fun i s ρ => ?_⟩
  rcases Instr.cases_form i with ⟨v, rfl⟩ | ⟨c, dest, jump, rfl⟩
  · rw [exec_addr]
    nofun
  · rw [exec_compute]
    exact compute_ne_refused c dest jump s ρ

/-! ### Stores -/

@[simp] theorem State.storesAt_addr (s : State) (v : Addr15) : s.storesAt (.addr v) = none := rfl

@[simp] theorem State.storesAt_compute (s : State) (c : Comp) (dest : Dest) (jump : Jump) :
    s.storesAt (c.instr dest jump) = if dest.m then some s.a.toNat else none := by
  rw [State.storesAt, Comp.instr_form]

/-- Settles O21: the address instruction has no store, and a completed compute instruction leaves every word but the
one at the old `A`, and that one too without destination `M`. -/
theorem memoryFrame : Obligations.MemoryFrame := by
  intro i s t h addr hne
  rcases Instr.cases_form i with ⟨v, rfl⟩ | ⟨c, dest, jump, rfl⟩
  · rw [eq_of_exec_addr h]
    rfl
  · obtain ⟨y, -, ht⟩ := committed_of_exec h
    rw [ht.mem, if_neg]
    rintro ⟨hm, rfl⟩
    exact hne (by rw [State.storesAt_compute, if_pos hm])

/-- Settles O22: the notification is made under the destination mask and the screen predicate, and the word told is the
one that then stands at the old `A`. -/
theorem screenToldExactly : Obligations.ScreenToldExactly := by
  intro i s t h
  rcases Instr.cases_form i with ⟨v, rfl⟩ | ⟨c, dest, jump, rfl⟩
  · exact ⟨nofun, fun _ => by rw [eq_of_exec_addr h]⟩
  · obtain ⟨y, -, ht⟩ := committed_of_exec h
    rw [State.storesAt_compute, ht.screen, ht.mem]
    cases hm : dest.m with
    | false => simp
    | true =>
      refine ⟨fun _ hlo hhi => by simp [hlo, hhi], fun hout => if_neg ?_⟩
      rintro ⟨-, hlo, hhi⟩
      rcases hout with hnone | hlow | hhigh
      · cases hnone
      · omega
      · omega

/-- Settles O26: with selector 0 the operand is `A`, so the result, and with it the whole next state but the memory, is
the same; the word stored is the result; and whether the instruction faults depends on `A` alone. -/
theorem selectorZeroIgnoresMemory : Obligations.SelectorZeroIgnoresMemory := by
  intro c dest jump s m hsel
  simp only [exec_compute]
  constructor
  · intro t ht
    obtain ⟨y, hy, hm⟩ := operand_of_compute_next ht
    have hy' : State.operand { s with mem := m } c.selector = .ok y := by
      rw [hsel] at hy ⊢
      exact hy
    rw [compute_next hy hm] at ht
    obtain rfl := Host.Outcome.next.inj ht
    refine ⟨_, compute_next hy' hm, rfl, rfl, rfl, rfl, rfl, fun hstore => ?_⟩
    simp [State.word, Memory.read_write, hstore]
  · intro f hf
    have hrange := compute_fault_iff.1 hf
    exact compute_fault_iff.2 hrange

/-! ### The keyboard word -/

/-- Of the codes written one after the other the last one stays, and no other word changes (20_memory.md R79). -/
theorem Memory.read_foldl_write (codes : List Word) (m : Store) (addr : Nat) :
    Memory.read (codes.foldl (fun m code => Memory.write m Config.kbdAddr code) m) addr =
      if addr = 24576 then codes.getLastD (Memory.read m addr) else Memory.read m addr := by
  induction codes generalizing m with
  | nil => simp
  | cons code codes ih =>
    rw [List.foldl_cons, ih, Memory.read_write, List.getLastD_cons]
    by_cases h : addr = 24576 <;> simp [h, Config.kbdAddr]

theorem State.hostPhase_word (s : State) (addr : Nat) :
    s.hostPhase.word addr = if addr = 24576 then s.nextKeys.getLastD (s.word addr) else s.word addr := by
  rw [State.hostPhase_eq]
  exact Memory.read_foldl_write s.nextKeys s.mem addr

/-- Settles O32: the host's phase writes the codes at the head of the tape, all at the keyboard address. -/
theorem hostWritesKeyboardOnly : Obligations.HostWritesKeyboardOnly := by
  intro s codes rest hkeys
  have hnext : s.nextKeys = codes := by rw [State.nextKeys, hkeys, List.headD_cons]
  refine ⟨?_, fun addr hne => ?_, s.hostPhase_d, s.hostPhase_a, s.hostPhase_pc, s.hostPhase_rom,
    s.hostPhase_screen, ?_⟩
  · rw [State.hostPhase_word, if_pos rfl, hnext]
  · rw [State.hostPhase_word, if_neg hne]
  · rw [State.hostPhase_keys, hkeys, List.tail_cons]

/-! ### Fetches outside the ROM -/

/-- What a fetch from the ROM can answer (20_memory.md R52, 70_reset_and_hazards.md R317). -/
theorem State.romRead_cases (s : State) (pc : Word) :
    (32768 ≤ pc.toNat ∧ s.romRead pc = .error (.romRange pc)) ∨
    (pc.toNat < 32768 ∧ ∃ w, Store.lookup s.rom pc.toNat = some w ∧ s.romRead pc = .ok w) ∨
    (pc.toNat < 32768 ∧ Store.lookup s.rom pc.toNat = none ∧ s.romRead pc = .error (.romUnloaded pc)) := by
  rcases Nat.lt_or_ge pc.toNat 32768 with hr | hr
  · refine .inr ?_
    cases hw : Store.lookup s.rom pc.toNat with
    | some w => exact .inl ⟨hr, w, rfl, State.romRead_loaded (Nat.le_of_lt_succ hr) hw⟩
    | none =>
      refine .inr ⟨hr, rfl, ?_⟩
      rw [State.romRead, if_neg (show ¬ Config.romSize ≤ pc.toNat from Nat.not_le.2 hr), hw]
      rfl
  · exact .inl ⟨hr, if_pos hr⟩

/-- A fetched word that is no instruction is another fault than `RomRange` (60_exceptions.md R281). -/
theorem State.decodeFault_ne_romRange (s : State) (w : Word) (e : DecodeError) (pc : Word) :
    s.decodeFault w e ≠ .romRange pc := by
  cases e with
  | badPadding => nofun
  | invalidComputation =>
    unfold State.decodeFault
    cases w.getLsbD 12 with
    | false => nofun
    | true => rcases s.memRead_cases s.pc s.a with ⟨-, hr⟩ | ⟨-, hr⟩ <;> simp [hr]

/-- Exactly when fetching and decoding is `RomRange` (60_exceptions.md R271). -/
theorem State.fetch_romRange_iff {s : State} {pc : Word} :
    s.fetch = .error (.romRange pc) ↔ pc = s.pc ∧ 32768 ≤ s.pc.toNat := by
  rw [State.fetch]
  rcases s.romRead_cases s.pc with ⟨hr, he⟩ | ⟨hr, w, -, he⟩ | ⟨hr, -, he⟩
  · simp [he, hr, eq_comm]
  · refine iff_of_false ?_ fun h => absurd h.2 (Nat.not_le.2 hr)
    rw [he]
    cases hd : decode w with
    | ok i => simp [hd]
    | error e => simpa [hd] using s.decodeFault_ne_romRange w e pc
  · simp [he, Nat.not_le.2 hr]

/-- A tick is `RomRange` only by its fetch: the faults of an instruction are those of data accesses. -/
theorem tick_romRange_iff {s : State} {pc : Word} :
    tick s = .fault (.romRange pc) ↔ pc = s.pc ∧ 32768 ≤ s.pc.toNat := by
  rw [← State.fetch_romRange_iff, tick]
  cases hf : s.fetch with
  | error f => simp
  | ok i =>
    refine iff_of_false (fun h => ?_) nofun
    rcases (exec_fault h).2 with hr | hw
    · cases hr
    · cases hw

/-- Settles O34: the host's phase leaves `PC`, so the tick of the step fetches at the `PC` of the state itself. -/
theorem fetchOutsideRomFaults : Obligations.FetchOutsideRomFaults := by
  have hstep (s : State) (pc : Word) : step s = .fault (.romRange pc) ↔ pc = s.pc ∧ 32768 ≤ s.pc.toNat := by
    rw [step, tick_romRange_iff, State.hostPhase_pc]
  exact ⟨fun s h => (hstep s s.pc).2 ⟨rfl, h⟩, fun s pc h => (hstep s pc).1 h⟩

end Sys2Proof.Machine

/-! Words and instructions (30_encoding.md R90 to R112): what the encoder packs into a word, what the decoder answers on
each range of words, and that the two are inverse to each other. -/

namespace Sys2Proof

/-! ### The encoder as a number -/

@[simp] theorem Dest.mask_ofMask (b : BitVec 3) : (Dest.ofMask b).mask = b := by revert b; decide

@[simp] theorem Jump.mask_ofMask (b : BitVec 3) : (Jump.ofMask b).mask = b := by revert b; decide

theorem Dest.mask_toNat (dest : Dest) : dest.mask.toNat = dest.a.toNat * 4 + dest.d.toNat * 2 + dest.m.toNat := by
  obtain ⟨a, d, m⟩ := dest
  revert a d m; decide

theorem Jump.mask_toNat (jump : Jump) :
    jump.mask.toNat = jump.neg.toNat * 4 + jump.zero.toNat * 2 + jump.pos.toNat := by
  obtain ⟨n, z, p⟩ := jump
  revert n z p; decide

/-- Appending bits below a bit vector is adding their number to a multiple of their number of values. -/
theorem toNat_append_eq_add {m n : Nat} (x : BitVec m) (y : BitVec n) :
    (x ++ y).toNat = x.toNat * 2 ^ n + y.toNat := by
  rw [BitVec.toNat_append, ← Nat.shiftLeft_add_eq_or_of_lt y.isLt, Nat.shiftLeft_eq]

theorem encodeA_toNat (n : Nat) : (encodeA n).toNat = n % 32768 := by
  rw [encodeA, BitVec.toNat_ofNat]
  omega

theorem encodeC_toNat (dest : Dest) (comp : Comp) (jump : Jump) :
    (encodeC dest comp jump).toNat = 0xE000 + comp.code.toNat * 64 + dest.mask.toNat * 8 + jump.mask.toNat := by
  simp only [encodeC, toNat_append_eq_add, BitVec.toNat_ofNat]
  omega

/-- Settles O4: the masks are the numbers of their bits, and the word is that of its fields. -/
theorem encoderPacksFields : Obligations.EncoderPacksFields := by
  refine ⟨encodeA_toNat, fun dest comp jump => ?_⟩
  rw [encodeC_toNat, Dest.mask_toNat, Jump.mask_toNat]

/-! ### The decoder on each range of words -/

theorem Word.bit_iff (w : Word) (i : Nat) : w.getLsbD i = true ↔ w.toNat / 2 ^ i % 2 = 1 := by
  rw [← BitVec.testBit_toNat, Nat.testBit_eq_decide_div_mod_eq, decide_eq_true_iff]

theorem Word.bit15_iff (w : Word) : w.getLsbD 15 = true ↔ 0x8000 ≤ w.toNat := by
  have := w.isLt
  rw [w.bit_iff]
  omega

theorem Word.padding_iff {w : Word} (h : 0x8000 ≤ w.toNat) : w.extractLsb' 13 2 = 0b11#2 ↔ 0xE000 ≤ w.toNat := by
  have := w.isLt
  rw [← BitVec.toNat_inj, BitVec.extractLsb'_toNat, BitVec.toNat_ofNat, Nat.shiftRight_eq_div_pow]
  omega

/-- An address instruction (30_encoding.md R92). -/
theorem decode_address {w : Word} (h : w.toNat < 0x8000) : decode w = .ok (.addr (w.extractLsb' 0 15)) := by
  rw [decode, if_pos]
  rw [← Bool.not_eq_true, w.bit15_iff]
  omega

/-- Bad padding (30_encoding.md R104). -/
theorem decode_badPadding {w : Word} (h : 0x8000 ≤ w.toNat) (hlt : w.toNat < 0xE000) :
    decode w = .error .badPadding := by
  rw [decode, if_neg (by simp [w.bit15_iff.2 h]), if_pos]
  rw [ne_eq, Word.padding_iff h]
  omega

/-- A compute instruction (30_encoding.md R93). -/
theorem decode_compute {w : Word} (h : 0xE000 ≤ w.toNat) {c : Comp} (hc : compOfCode (w.extractLsb' 6 7) = some c) :
    decode w = .ok (c.instr (Dest.ofMask (w.extractLsb' 3 3)) (Jump.ofMask (w.extractLsb' 0 3))) := by
  have h15 : 0x8000 ≤ w.toNat := Nat.le_trans (by decide) h
  rw [decode, if_neg (by simp [w.bit15_iff.2 h15]), if_neg (not_not_intro ((Word.padding_iff h15).2 h)), hc]

/-- An invalid computation (30_encoding.md R105). -/
theorem decode_invalidComputation {w : Word} (h : 0xE000 ≤ w.toNat) (hc : compOfCode (w.extractLsb' 6 7) = none) :
    decode w = .error .invalidComputation := by
  have h15 : 0x8000 ≤ w.toNat := Nat.le_trans (by decide) h
  rw [decode, if_neg (by simp [w.bit15_iff.2 h15]), if_neg (not_not_intro ((Word.padding_iff h15).2 h)), hc]

/-- What the decoder can answer: each of the four classes of words with its answer (30_encoding.md R103 to R105). -/
theorem decode_cases (w : Word) :
    (w.toNat < 0x8000 ∧ decode w = .ok (.addr (w.extractLsb' 0 15))) ∨
    (0x8000 ≤ w.toNat ∧ w.toNat < 0xE000 ∧ decode w = .error .badPadding) ∨
    (0xE000 ≤ w.toNat ∧ compOfCode (w.extractLsb' 6 7) = none ∧ decode w = .error .invalidComputation) ∨
    (0xE000 ≤ w.toNat ∧ ∃ c, compOfCode (w.extractLsb' 6 7) = some c ∧
      decode w = .ok (c.instr (Dest.ofMask (w.extractLsb' 3 3)) (Jump.ofMask (w.extractLsb' 0 3)))) := by
  rcases Nat.lt_or_ge w.toNat 0x8000 with ha | ha
  · exact .inl ⟨ha, decode_address ha⟩
  rcases Nat.lt_or_ge w.toNat 0xE000 with hp | hp
  · exact .inr (.inl ⟨ha, hp, decode_badPadding ha hp⟩)
  cases hc : compOfCode (w.extractLsb' 6 7) with
  | none => exact .inr (.inr (.inl ⟨hp, rfl, decode_invalidComputation hp hc⟩))
  | some c => exact .inr (.inr (.inr ⟨hp, c, rfl, decode_compute hp hc⟩))

/-! ### Decoder and encoder are inverse -/

theorem decode_encodeA {n : Nat} (h : n < 32768) : decode (encodeA n) = .ok (.addr (BitVec.ofNat 15 n)) := by
  have hn : (encodeA n).toNat = n := by rw [encodeA_toNat, Nat.mod_eq_of_lt h]
  rw [decode_address (by omega)]
  congr 2
  apply BitVec.eq_of_toNat_eq
  rw [BitVec.extractLsb'_toNat, hn, BitVec.toNat_ofNat, Nat.shiftRight_zero]

/-- The fields of an encoded compute instruction are where the decoder reads them (30_encoding.md R93). -/
theorem encodeC_fields (dest : Dest) (comp : Comp) (jump : Jump) :
    (encodeC dest comp jump).extractLsb' 6 7 = comp.code ∧ (encodeC dest comp jump).extractLsb' 3 3 = dest.mask ∧
      (encodeC dest comp jump).extractLsb' 0 3 = jump.mask := by
  have := comp.code.isLt
  have := dest.mask.isLt
  have := jump.mask.isLt
  refine ⟨?_, ?_, ?_⟩ <;> apply BitVec.eq_of_toNat_eq <;>
    rw [BitVec.extractLsb'_toNat, encodeC_toNat, Nat.shiftRight_eq_div_pow] <;> omega

theorem decode_encodeC (dest : Dest) (comp : Comp) (jump : Jump) :
    decode (encodeC dest comp jump) = .ok (comp.instr dest jump) := by
  obtain ⟨hcode, hdest, hjump⟩ := encodeC_fields dest comp jump
  have hc : compOfCode ((encodeC dest comp jump).extractLsb' 6 7) = some comp := by rw [hcode, compOfCode_code]
  have hge : 0xE000 ≤ (encodeC dest comp jump).toNat := by rw [encodeC_toNat]; omega
  rw [decode_compute hge hc, hdest, hjump, Dest.ofMask_mask, Jump.ofMask_mask]

@[simp] theorem encode_addr (v : Addr15) : encode (.addr v) = encodeA v.toNat := rfl

@[simp] theorem encode_instr (comp : Comp) (dest : Dest) (jump : Jump) :
    encode (comp.instr dest jump) = encodeC dest comp jump := by
  rw [encode, Comp.instr_form]

theorem decode_encode (i : Instr) : decode (encode i) = .ok i := by
  rcases i.cases_form with ⟨v, rfl⟩ | ⟨comp, dest, jump, rfl⟩
  · rw [encode_addr, decode_encodeA v.isLt, BitVec.ofNat_toNat, BitVec.setWidth_eq]
  · rw [encode_instr, decode_encodeC]

/-- A word from 0xE000 up is the one its three fields encode (30_encoding.md R93, R110). -/
theorem encodeC_ofFields {w : Word} (h : 0xE000 ≤ w.toNat) {comp : Comp} (hc : comp.code = w.extractLsb' 6 7) :
    encodeC (Dest.ofMask (w.extractLsb' 3 3)) comp (Jump.ofMask (w.extractLsb' 0 3)) = w := by
  have := w.isLt
  apply BitVec.eq_of_toNat_eq
  simp only [encodeC_toNat, hc, Dest.mask_ofMask, Jump.mask_ofMask, BitVec.extractLsb'_toNat, Nat.shiftRight_eq_div_pow]
  omega

theorem encode_of_decode {w : Word} {i : Instr} (h : decode w = .ok i) : encode i = w := by
  rcases decode_cases w with ⟨ha, hd⟩ | ⟨-, -, hd⟩ | ⟨-, -, hd⟩ | ⟨hp, c, hc, hd⟩
  · cases hd.symm.trans h
    apply BitVec.eq_of_toNat_eq
    rw [encode_addr, encodeA_toNat, BitVec.extractLsb'_toNat, Nat.shiftRight_zero]
    omega
  · cases hd.symm.trans h
  · cases hd.symm.trans h
  · cases hd.symm.trans h
    rw [encode_instr, encodeC_ofFields hp (code_of_compOfCode hc)]

/-- Settles O1: the decoder undoes the encoder on every instruction, and the encoder the decoder on every word that
decodes. -/
theorem decodeInvertsEncode : Obligations.DecodeInvertsEncode := by
  refine ⟨decode_encodeC, fun n => decode_encodeA, fun w i => encode_of_decode, fun w => ⟨?_, ?_⟩⟩
  · rintro ⟨i, rfl⟩
    exact ⟨i, decode_encode i⟩
  · rintro ⟨i, h⟩
    exact ⟨i, encode_of_decode h⟩

/-! ### The words the decoder rejects -/

/-- The codes the specification lists are the codes of the table (30_encoding.md R99, R100). -/
theorem mem_legalCompCodes_iff (code : BitVec 7) : code.toNat ∈ legalCompCodes ↔ compOfCode code ≠ none := by
  revert code; decide

theorem Word.isAddress_iff (w : Word) : w.isAddress = true ↔ w.toNat < 0x8000 := by
  rw [Word.isAddress, Bool.not_eq_true', ← Bool.not_eq_true, w.bit15_iff, Nat.not_le]

theorem Word.paddingOk_iff {w : Word} (h : 0x8000 ≤ w.toNat) : w.paddingOk = true ↔ 0xE000 ≤ w.toNat := by
  have := w.isLt
  rw [Word.paddingOk, Bool.and_eq_true, w.bit_iff, w.bit_iff]
  omega

theorem Word.compOk_iff (w : Word) : w.compOk = true ↔ (w.extractLsb' 6 7).toNat ∈ legalCompCodes := by
  rw [Word.compOk, List.contains_iff_mem, BitVec.extractLsb'_toNat, Nat.shiftRight_eq_div_pow]

/-- The well-formed words as ranges and legal codes (30_encoding.md R103, the first two classes). -/
theorem Word.wellFormed_iff (w : Word) :
    w.wellFormed = true ↔
      w.toNat < 0x8000 ∨ (0xE000 ≤ w.toNat ∧ (w.extractLsb' 6 7).toNat ∈ legalCompCodes) := by
  rw [Word.wellFormed, Bool.or_eq_true, Bool.and_eq_true, w.isAddress_iff, w.compOk_iff]
  rcases Nat.lt_or_ge w.toNat 0x8000 with h | h
  · simp only [h, true_or]
  · rw [Word.paddingOk_iff h]

/-- Settles O2: one case for each class of words, the codes outside the list being those the table does not hold. -/
theorem decoderRejectsExactly : Obligations.DecoderRejectsExactly := by
  refine ⟨fun w => ?_, fun w => ?_, fun w => ?_⟩
  · rcases decode_cases w with ⟨h, hd⟩ | ⟨h, h', hd⟩ | ⟨h, -, hd⟩ | ⟨h, c, -, hd⟩ <;> simp [hd] <;> omega
  · change _ ↔ _ ∧ _ ∉ legalCompCodes
    rw [mem_legalCompCodes_iff, not_not]
    rcases decode_cases w with ⟨h, hd⟩ | ⟨h, h', hd⟩ | ⟨h, hc, hd⟩ | ⟨h, c, hc, hd⟩
    · simp [hd]
      omega
    · simp [hd]
      omega
    · simp [hd, h, hc]
    · simp [hd, hc]
  · rw [Word.wellFormed_iff, mem_legalCompCodes_iff]
    rcases decode_cases w with ⟨h, hd⟩ | ⟨h, h', hd⟩ | ⟨h, hc, hd⟩ | ⟨h, c, hc, hd⟩
    · simp [hd, h]
    · simp [hd]
      omega
    · simp [hd, hc]
      omega
    · simp [hd, h, hc]

/-- Settles O3, by running the decoder on the nine words. -/
theorem encodingSanityWords : Obligations.EncodingSanityWords := by
  unfold Obligations.EncodingSanityWords
  decide

/-- Settles O5: a code is looked up to one computation, so no two share it. -/
theorem compTableConstraints : Obligations.CompTableConstraints := by
  refine ⟨fun c c' h => ?_, Comp.selector_iff, by decide⟩
  have hc : some c = some c' := by rw [← compOfCode_code c, h, compOfCode_code]
  exact Option.some.inj hc

end Sys2Proof

/-! The assembler (30_encoding.md R120 to R146): cleaning, the symbol table, the two passes, and what
an assembly emits. -/

namespace Sys2Proof.Asm

/-! ### Cleaning -/

theorem isBlank_iff (c : Char) : isBlank c = true ↔ c = ' ' ∨ c = '\t' ∨ c = '\r' := by
  simp [isBlank, or_assoc]

theorem not_isBlank_of_mem_clean {line : Text} {c : Char} (h : c ∈ clean line) : isBlank c = false := by
  simpa using (List.mem_filter.1 h).2

/-- A line that no comment is dropped from is kept, and what follows its end from `//` on is dropped. -/
theorem stripComment_append_comment {line : Text} (rest : Text) (h : stripComment line = line)
    (hlast : line.getLast? ≠ some '/') : stripComment (line ++ '/' :: '/' :: rest) = line := by
  induction line using stripComment.induct with
  | case1 => simp [stripComment]
  | case2 c =>
    have hc : c ≠ '/' := by simpa using hlast
    simp [stripComment, hc]
  | case3 c c' tail hslash => simp [stripComment, hslash] at h
  | case4 c c' tail hslash ih =>
    rw [stripComment, if_neg hslash, List.cons.injEq] at h
    rw [List.getLast?_cons_cons] at hlast
    have := ih h.2 hlast
    rw [List.cons_append, List.cons_append, stripComment, if_neg hslash, ← List.cons_append, this]

theorem stripComment_of_no_slash {line : Text} (h : '/' ∉ line) : stripComment line = line := by
  induction line using stripComment.induct with
  | case1 => rfl
  | case2 c => rfl
  | case3 c c' tail hslash => simp [hslash.1] at h
  | case4 c c' tail hslash ih => rw [stripComment, if_neg hslash, ih (List.not_mem_of_not_mem_cons h)]

/-- Settles O50: cleaning is the dropping of the comment, then a filter. -/
theorem cleaningDropsCommentsAndBlanks : Obligations.CleaningDropsCommentsAndBlanks := by
  refine ⟨fun line c h => ?_, fun line rest h hlast => ?_, fun line h => ?_⟩
  · rw [← not_or, ← not_or, ← isBlank_iff, not_isBlank_of_mem_clean h]
    exact Bool.false_ne_true
  · rw [clean, stripComment_append_comment rest h hlast, clean, h]
  · rw [clean, stripComment_of_no_slash h]

/-- Cleaning keeps a line without slashes and blanks as it is. -/
theorem clean_eq_self {line : Text} (h : ∀ c ∈ ['/', ' ', '\t', '\r'], c ∉ line) : clean line = line := by
  rw [clean, stripComment_of_no_slash (h '/' (by decide)), List.filter_eq_self]
  intro c hc
  rw [Bool.not_eq_true', ← Bool.not_eq_true, isBlank_iff]
  rintro (rfl | rfl | rfl) <;> exact h _ (by decide) hc

/-! ### The symbol table -/

/-- Settles O49, by looking each name up in the table of R127. -/
theorem predefinedSymbols : Obligations.PredefinedSymbols := by
  unfold Obligations.PredefinedSymbols
  decide

/-- A name the table does not hold is allocated at the counter (30_encoding.md R129, R134). -/
theorem resolve_unknown {t : SymbolTable} {name : Text} (line : Nat) (h : t.lookup name = none)
    (hvar : t.nextVar < 16384) :
    t.resolve line name = .ok (BitVec.ofNat 15 t.nextVar,
      ⟨(name, BitVec.ofNat 15 t.nextVar) :: t.entries, t.nextVar + 1⟩) := by
  rw [SymbolTable.resolve, h]
  simp only [SymbolTable.addVariable, h]
  exact if_neg (Nat.not_le.2 hvar)

theorem resolve_known {t : SymbolTable} {name : Text} {addr : Addr15} (line : Nat) (h : t.lookup name = some addr) :
    t.resolve line name = .ok (addr, t) := by
  rw [SymbolTable.resolve, h]

theorem lookup_cons (t : SymbolTable) (nextVar : Nat) (name other : Text) (addr : Addr15) :
    SymbolTable.lookup ⟨(name, addr) :: t.entries, nextVar⟩ other =
      if other = name then some addr else t.lookup other := by
  by_cases h : name = other
  · simp [SymbolTable.lookup, h]
  · simp [SymbolTable.lookup, h, Ne.symm h]

/-- Settles O48: the new entry stands in front of the table, under the name that was not in it. -/
theorem variableAllocation : Obligations.VariableAllocation := by
  refine ⟨rfl, fun t line name h hvar => ?_⟩
  refine ⟨_, _, resolve_unknown line h hvar, ?_, rfl, fun line' => ?_, fun other ho => ?_⟩
  · rw [BitVec.toNat_ofNat]
    omega
  · exact resolve_known line' (by rw [lookup_cons, if_pos rfl])
  · rw [lookup_cons, if_neg ho]

/-! ### The first pass -/

/-- What the first pass does to its first line when it succeeds: nothing for a blank one, a binding for a label, one
emitted line for an instruction (30_encoding.md R122 to R124). -/
theorem preprocessFrom_cons {n k : Nat} {t t' : SymbolTable} {raw : Text} {rest : List Text}
    {lines : List (Nat × Text)} (h : preprocessFrom n k t (raw :: rest) = .ok (lines, t')) :
    (clean raw = [] ∧ preprocessFrom (n + 1) k t rest = .ok (lines, t')) ∨
    (∃ name, clean raw = '(' :: name ++ [')'] ∧ preprocessFrom (n + 1) k (t.setLabel name k) rest = .ok (lines, t')) ∨
    (∃ c line ls, clean raw = c :: line ∧ c ≠ '(' ∧ preprocessFrom (n + 1) (k + 1) t rest = .ok (ls, t') ∧
      lines = (n, c :: line) :: ls) := by
  cases hc : clean raw with
  | nil => exact .inl ⟨rfl, by rwa [preprocessFrom_blank hc] at h⟩
  | cons c line =>
    by_cases hp : c = '('
    · subst hp
      obtain ⟨name, hn, h'⟩ := preprocessFrom_label hc h
      exact .inr (.inl ⟨name, hc.symm.trans hn, h'⟩)
    · obtain ⟨ls, h', hl⟩ := preprocessFrom_instruction hc hp h
      exact .inr (.inr ⟨c, line, ls, rfl, hp, h', hl⟩)

open Machine (instructionLines declaresLabel)

theorem declaresLabel_iff {name line : Text} : declaresLabel name line = true ↔ clean line = '(' :: name ++ [')'] :=
  beq_iff_eq

/-- A label that no later line declares keeps its binding to the end of the pass (30_encoding.md R128). -/
theorem lookup_preprocessFrom {name : Text} {lines : List Text} (hname : ∀ l ∈ lines, declaresLabel name l = false)
    {n k : Nat} {t t' : SymbolTable} {out : List (Nat × Text)} (h : preprocessFrom n k t lines = .ok (out, t')) :
    t'.lookup name = t.lookup name := by
  induction lines generalizing n k t out with
  | nil =>
    rw [preprocessFrom] at h
    cases h; rfl
  | cons raw rest ih =>
    obtain ⟨hraw, hrest⟩ := List.forall_mem_cons.1 hname
    rcases preprocessFrom_cons h with ⟨-, h'⟩ | ⟨other, hc, h'⟩ | ⟨c, line, ls, -, -, h', -⟩
    · exact ih hrest h'
    · have hne : name ≠ other := by
        rintro rfl
        rw [declaresLabel_iff.2 hc] at hraw
        cases hraw
      rw [ih hrest h', lookup_setLabel, if_neg hne]
    · exact ih hrest h'

theorem instructionLines_blank {raw : Text} (rest : List Text) (h : clean raw = []) :
    instructionLines (raw :: rest) = instructionLines rest := by
  simp [instructionLines, h]

theorem instructionLines_label {raw body : Text} (rest : List Text) (h : clean raw = '(' :: body) :
    instructionLines (raw :: rest) = instructionLines rest := by
  simp [instructionLines, h]

theorem instructionLines_instruction {raw line : Text} {c : Char} (rest : List Text) (h : clean raw = c :: line)
    (hne : c ≠ '(') : instructionLines (raw :: rest) = 1 + instructionLines rest := by
  simp [instructionLines, h, hne, Nat.add_comm]

/-- The first pass over a concatenation reaches its second part at the next instruction address (30_encoding.md
R124). -/
theorem preprocessFrom_append {before rest : List Text} {n k : Nat} {t t' : SymbolTable} {out : List (Nat × Text)}
    (h : preprocessFrom n k t (before ++ rest) = .ok (out, t')) :
    ∃ n' t'' out', preprocessFrom n' (k + instructionLines before) t'' rest = .ok (out', t') := by
  induction before generalizing n k t out with
  | nil => exact ⟨n, t, out, h⟩
  | cons raw before ih =>
    rcases preprocessFrom_cons h with ⟨hc, h'⟩ | ⟨name, hc, h'⟩ | ⟨c, line, ls, hc, hne, h', -⟩
    · rw [instructionLines_blank before hc]
      exact ih h'
    · rw [instructionLines_label before hc]
      exact ih h'
    · rw [instructionLines_instruction before hc hne, ← Nat.add_assoc]
      exact ih h'

/-- Settles O47: the pass reaches the declaration at the count of the lines before it, and no line after it binds the
label again. -/
theorem labelNamesNextInstruction : Obligations.LabelNamesNextInstruction := by
  intro before after line name n k t t' lines h hdecl hafter
  obtain ⟨n', t'', out, h'⟩ := preprocessFrom_append h
  have hclean := declaresLabel_iff.1 hdecl
  obtain ⟨name', hc, h''⟩ := preprocessFrom_label (body := name ++ [')']) hclean h'
  obtain rfl : name' = name := by simpa using hc.symm.trans hclean
  refine ⟨_, ?_, BitVec.toNat_ofNat ..⟩
  rw [lookup_preprocessFrom hafter h'', lookup_setLabel, if_pos rfl]

/-! ### The second pass -/

/-- What the second pass does to its first line when it succeeds (30_encoding.md R126). -/
theorem encodeLines_cons {t t' : SymbolTable} {n : Nat} {line : Text} {rest : List (Nat × Text)} {ws : List Word}
    (h : encodeLines t ((n, line) :: rest) = .ok (ws, t')) :
    ∃ w t'' ws', encodeLine n t line = .ok (w, t'') ∧ encodeLines t'' rest = .ok (ws', t') ∧ ws = w :: ws' := by
  rw [encodeLines] at h
  split at h
  · cases h
  · rename_i w t'' hline
    split at h
    · cases h
    · rename_i ws' _ hrest
      cases h
      exact ⟨w, t'', ws', hline, hrest, rfl⟩

/-- A word of the second pass is an instruction (30_encoding.md R111). -/
theorem encodeLine_decodes {n : Nat} {t t' : SymbolTable} {line : Text} {w : Word}
    (h : encodeLine n t line = .ok (w, t')) : ∃ i, decode w = .ok i := by
  rcases encodeLine_form h with ⟨v, rfl⟩ | ⟨dest, comp, jump, rfl⟩
  · exact ⟨_, decode_address (by rw [encodeA_toNat]; omega)⟩
  · exact ⟨_, decode_encodeC dest comp jump⟩

theorem encodeLines_decodes {lines : List (Nat × Text)} {t t' : SymbolTable} {ws : List Word}
    (h : encodeLines t lines = .ok (ws, t')) : (∀ w ∈ ws, ∃ i, decode w = .ok i) ∧ lines.length = ws.length := by
  induction lines generalizing t ws with
  | nil =>
    rw [encodeLines] at h
    cases h
    exact ⟨nofun, rfl⟩
  | cons line rest ih =>
    obtain ⟨w, t'', ws', hline, hrest, rfl⟩ := encodeLines_cons h
    obtain ⟨hws, hlen⟩ := ih hrest
    exact ⟨List.forall_mem_cons.2 ⟨encodeLine_decodes hline, hws⟩, congrArg (· + 1) hlen⟩

/-- A successful assembly is a success of both passes (30_encoding.md R126). -/
theorem assemble_ok {source : Text} {ws : List Word} (h : assemble source = .ok ws) :
    ∃ lines t t', preprocess source = .ok (lines, t) ∧ encodeLines t lines = .ok (ws, t') := by
  rw [assemble] at h
  split at h
  · cases h
  · rename_i lines t hpre
    split at h
    · cases h
    · rename_i ws' t' hws
      cases h
      exact ⟨lines, t, t', hpre, hws⟩

/-- Settles O46: the second pass makes one instruction word for each line the first one emits. -/
theorem assemblerEmitsInstructions : Obligations.AssemblerEmitsInstructions := by
  intro source ws h
  obtain ⟨lines, t, t', hpre, hws⟩ := assemble_ok h
  obtain ⟨hdecodes, hlen⟩ := encodeLines_decodes hws
  exact ⟨hdecodes, lines.map Prod.snd, by rw [preprocessedText, hpre], by rw [List.length_map, hlen]⟩

end Sys2Proof.Asm

/-! The printed form of an instruction (30_encoding.md R146, D14): its tokens and digits are read back as the fields
they were printed from. -/

namespace Sys2Proof.Asm

/-! ### Decimal literals -/

theorem toNat_digit {d : Nat} (h : d < 10) : (Char.ofNat (48 + d)).toNat = 48 + d := by
  revert d; decide

theorem isDigit_of_mem_digitsOf {fuel n : Nat} {c : Char} (h : c ∈ digitsOf fuel n) : isDigit c = true := by
  induction fuel generalizing n with
  | zero => cases h
  | succ fuel ih =>
    rw [digitsOf, List.mem_append, List.mem_singleton] at h
    rcases h with h | rfl
    · split at h
      · cases h
      · exact ih h
    · have := toNat_digit (Nat.mod_lt n (by decide : 10 > 0))
      simp [isDigit, this]
      omega

theorem decimalValue_append_digit (t : Text) (c : Char) :
    decimalValue (t ++ [c]) = decimalValue t * 10 + (c.toNat - 48) := by
  simp [decimalValue]

/-- With enough fuel, the digits of a number read back as the number (30_encoding.md R132). -/
theorem decimalValue_digitsOf {fuel n : Nat} (h : n < 10 ^ fuel) : decimalValue (digitsOf fuel n) = n := by
  induction fuel generalizing n with
  | zero =>
    obtain rfl : n = 0 := by omega
    rfl
  | succ fuel ih =>
    rw [digitsOf, decimalValue_append_digit, toNat_digit (Nat.mod_lt n (by decide))]
    split
    · simp [decimalValue]
      omega
    · rw [ih (by omega)]
      omega

theorem digitsOf_succ_ne_nil (fuel n : Nat) : digitsOf (fuel + 1) n ≠ [] := by
  simp [digitsOf]

theorem parseOperand_digits {t : Text} (hne : t ≠ []) (hd : ∀ c ∈ t, isDigit c = true) :
    parseOperand t = some (.literal (decimalValue t)) := by
  cases t with
  | nil => exact absurd rfl hne
  | cons c rest =>
    obtain ⟨hc, hrest⟩ := List.forall_mem_cons.1 hd
    rw [parseOperand, if_pos hc, if_pos (List.all_eq_true.2 hrest)]

theorem encodeLine_digits {t : Text} (n : Nat) (tab : SymbolTable) (hne : t ≠ []) (hd : ∀ c ∈ t, isDigit c = true)
    (hv : decimalValue t ≤ 65535) : encodeLine n tab ('@' :: t) = .ok (encodeA (decimalValue t), tab) := by
  simp [encodeLine, parseLine, parseOperand_digits hne hd, AsmOperand.wellFormed, hv]

theorem printInstr_addr (v : Addr15) : printInstr (.addr v) = '@' :: digitsOf 5 v.toNat := rfl

theorem encodeLine_printInstr_addr (n : Nat) (t : SymbolTable) (v : Addr15) :
    encodeLine n t (printInstr (.addr v)) = .ok (encodeA v.toNat, t) := by
  have hv := v.isLt
  have hval : decimalValue (digitsOf 5 v.toNat) = v.toNat := decimalValue_digitsOf (by omega)
  rw [printInstr_addr, encodeLine_digits n t (digitsOf_succ_ne_nil 4 _) (fun _ => isDigit_of_mem_digitsOf)
    (by rw [hval]; omega), hval]

theorem clean_printInstr_addr (v : Addr15) : clean (printInstr (.addr v)) = printInstr (.addr v) := by
  have hother : ∀ c ∈ ['/', ' ', '\t', '\r'], c ≠ '@' ∧ isDigit c = false := by simp [isDigit]
  refine clean_eq_self fun c hc => ?_
  obtain ⟨hat, hdigit⟩ := hother c hc
  refine List.not_mem_cons_of_ne_of_not_mem hat fun h => ?_
  rw [isDigit_of_mem_digitsOf h] at hdigit
  cases hdigit

/-! ### Compute lines -/

/-- The characters that the mnemonics of R100 to R102 are made of. -/
def tokenChars : List Char :=
  ['0', '1', 'A', 'D', 'M', '!', '-', '+', '&', '|', 'J', 'G', 'T', 'E', 'Q', 'L', 'N', 'P']

/-- The destination part of a compute line (30_encoding.md R137). -/
def destPart : Option Text → Text
  | none => []
  | some t => t ++ ['=']

/-- The jump part of a compute line (30_encoding.md R139). -/
def jumpPart : Option Text → Text
  | none => []
  | some t => ';' :: t

theorem printInstr_instr (comp : Comp) (dest : Dest) (jump : Jump) :
    printInstr (comp.instr dest jump) = destPart (destToken dest) ++ compToken comp ++ jumpPart (jumpToken jump) := by
  rw [printInstr, Comp.instr_form]
  rfl

theorem compOfToken_compToken (comp : Comp) : compOfToken (compToken comp) = some comp := by
  cases comp <;> decide

theorem destOfToken_destToken (dest : Dest) : destOfToken (destToken dest) = some dest := by
  obtain ⟨a, d, m⟩ := dest
  revert a d m; decide

theorem jumpOfToken_jumpToken (jump : Jump) : jumpOfToken (jumpToken jump) = some jump := by
  obtain ⟨n, z, p⟩ := jump
  revert n z p; decide

theorem compToken_chars (comp : Comp) : compToken comp ⊆ tokenChars := by
  cases comp <;> decide

theorem destToken_chars (dest : Dest) : ∀ t ∈ destToken dest, t ⊆ tokenChars := by
  obtain ⟨a, d, m⟩ := dest
  revert a d m; decide

theorem jumpToken_chars (jump : Jump) : ∀ t ∈ jumpToken jump, t ⊆ tokenChars := by
  obtain ⟨n, z, p⟩ := jump
  revert n z p; decide

theorem splitAtFirst_append {sep : Char} {before : Text} (after : Text) (h : sep ∉ before) :
    splitAtFirst sep (before ++ sep :: after) = some (before, after) := by
  induction before with
  | nil => simp [splitAtFirst]
  | cons c rest ih =>
    obtain ⟨hc, hrest⟩ := List.ne_and_not_mem_of_not_mem_cons h
    rw [List.cons_append, splitAtFirst, if_neg hc.symm, ih hrest]

theorem splitAtFirst_none {sep : Char} {t : Text} (h : sep ∉ t) : splitAtFirst sep t = none := by
  induction t with
  | nil => rfl
  | cons c rest ih =>
    obtain ⟨hc, hrest⟩ := List.ne_and_not_mem_of_not_mem_cons h
    rw [splitAtFirst, if_neg hc.symm, ih hrest]

theorem splitAtFirst_destPart {destText : Option Text} {rest : Text} (hd : ∀ t ∈ destText, '=' ∉ t)
    (hrest : '=' ∉ rest) :
    splitAtFirst '=' (destPart destText ++ rest) = destText.map (fun t => (t, rest)) := by
  cases destText with
  | none => exact splitAtFirst_none hrest
  | some t =>
    rw [destPart, List.append_assoc]
    exact splitAtFirst_append rest (hd t rfl)

theorem splitAtFirst_jumpPart {compText : Text} (jumpText : Option Text) (hc : ';' ∉ compText) :
    splitAtFirst ';' (compText ++ jumpPart jumpText) = jumpText.map (fun t => (compText, t)) := by
  cases jumpText with
  | none =>
    rw [jumpPart, List.append_nil]
    exact splitAtFirst_none hc
  | some t => exact splitAtFirst_append t hc

section
variable {destText jumpText : Option Text} {compText : Text} (hd : ∀ t ∈ destText, t ⊆ tokenChars)
  (hc : compText ⊆ tokenChars) (hj : ∀ t ∈ jumpText, t ⊆ tokenChars)
include hd hc hj

/-- A line put together from mnemonics holds their characters and the two separators. -/
theorem parts_subset : destPart destText ++ compText ++ jumpPart jumpText ⊆ '=' :: ';' :: tokenChars := by
  have hsub : tokenChars ⊆ '=' :: ';' :: tokenChars :=
    List.subset_cons_of_subset _ (List.subset_cons_self ..)
  refine List.append_subset.2 ⟨List.append_subset.2 ⟨?_, List.Subset.trans hc hsub⟩, ?_⟩
  · cases destText with
    | none => exact List.nil_subset _
    | some t => exact List.append_subset.2 ⟨List.Subset.trans (hd t rfl) hsub, by decide⟩
  · cases jumpText with
    | none => exact List.nil_subset _
    | some t => exact List.cons_subset.2 ⟨by decide, List.Subset.trans (hj t rfl) hsub⟩

/-- A line put together from mnemonics is read back as them, since no mnemonic holds a separator (30_encoding.md
R136). -/
theorem parseCompute_parts {comp : Comp} {dest : Dest} {jump : Jump} (hdest : destOfToken destText = some dest)
    (hcomp : compOfToken compText = some comp) (hjump : jumpOfToken jumpText = some jump) :
    parseCompute (destPart destText ++ compText ++ jumpPart jumpText) = some (comp, dest, jump) := by
  have hrest : '=' ∉ compText ++ jumpPart jumpText := by
    rw [List.mem_append, not_or]
    refine ⟨fun h => absurd (hc h) (by decide), ?_⟩
    cases jumpText with
    | none => exact List.not_mem_nil
    | some t => exact List.not_mem_cons_of_ne_of_not_mem (by decide) fun h => absurd (hj t rfl h) (by decide)
  have hfirst := splitAtFirst_destPart (fun t ht h => absurd (hd t ht h) (by decide)) hrest
  have hsecond := splitAtFirst_jumpPart jumpText (fun h => absurd (hc h) (by decide))
  rw [List.append_assoc, parseCompute, hfirst]
  cases destText
  case' none => simp only [destPart, List.nil_append, Option.map_none, hsecond, hdest]
  case' some => simp only [Option.map_some, hsecond, hdest]
  all_goals
    cases jumpText with
    | none => simp [jumpPart, hcomp, hjump]
    | some j => simp [hcomp, hjump]

end

theorem parseLine_compute {n : Nat} {line : Text} {comp : Comp} {dest : Dest} {jump : Jump} (hlabel : '(' ∉ line)
    (haddress : '@' ∉ line) (h : parseCompute line = some (comp, dest, jump)) :
    parseLine n line = .ok (.compute comp dest jump) := by
  rw [parseLine, h]
  · rintro body rfl
    exact hlabel (List.mem_cons_self ..)
  · rintro body rfl
    exact haddress (List.mem_cons_self ..)

theorem printInstr_instr_subset (comp : Comp) (dest : Dest) (jump : Jump) :
    printInstr (comp.instr dest jump) ⊆ '=' :: ';' :: tokenChars := by
  rw [printInstr_instr]
  exact parts_subset (destToken_chars dest) (compToken_chars comp) (jumpToken_chars jump)

theorem encodeLine_printInstr_instr (n : Nat) (t : SymbolTable) (comp : Comp) (dest : Dest) (jump : Jump) :
    encodeLine n t (printInstr (comp.instr dest jump)) = .ok (encodeC dest comp jump, t) := by
  have hchars := printInstr_instr_subset comp dest jump
  have hparse : parseCompute (printInstr (comp.instr dest jump)) = some (comp, dest, jump) := by
    rw [printInstr_instr]
    exact parseCompute_parts (destToken_chars dest) (compToken_chars comp) (jumpToken_chars jump)
      (destOfToken_destToken dest) (compOfToken_compToken comp) (jumpOfToken_jumpToken jump)
  have hlabel : '(' ∉ printInstr (comp.instr dest jump) := fun h => absurd (hchars h) (by decide)
  have haddress : '@' ∉ printInstr (comp.instr dest jump) := fun h => absurd (hchars h) (by decide)
  rw [encodeLine, parseLine_compute hlabel haddress hparse]

theorem clean_printInstr_instr (comp : Comp) (dest : Dest) (jump : Jump) :
    clean (printInstr (comp.instr dest jump)) = printInstr (comp.instr dest jump) := by
  have hother : ∀ c ∈ ['/', ' ', '\t', '\r'], c ∉ '=' :: ';' :: tokenChars := by simp [tokenChars]
  exact clean_eq_self fun c hc h => hother c hc (printInstr_instr_subset comp dest jump h)

/-- Settles O45: an address line prints its value in decimal, a compute line its three mnemonics, and each is read
back. -/
theorem assembleInvertsPrint : Obligations.AssembleInvertsPrint := by
  intro i n t
  rcases i.cases_form with ⟨v, rfl⟩ | ⟨comp, dest, jump, rfl⟩
  · exact ⟨clean_printInstr_addr v, encodeLine_printInstr_addr n t v⟩
  · rw [encode_instr]
    exact ⟨clean_printInstr_instr comp dest jump, encodeLine_printInstr_instr n t comp dest jump⟩

end Sys2Proof.Asm

/-! The address instruction (40_address_instruction.md): the constant of its word, and its completion. -/

namespace Sys2Proof

/-! ### The constant of an address word -/

/-- An address word is its constant, zero-extended (30_encoding.md R92). -/
theorem Word.setWidth_constant {w : Word} (h : w.toNat < 0x8000) : (w.extractLsb' 0 15).setWidth 16 = w := by
  apply BitVec.eq_of_toNat_eq
  rw [BitVec.toNat_setWidth, BitVec.extractLsb'_toNat, Nat.shiftRight_zero]
  omega

theorem Word.and_constantMask {w : Word} (h : w.toNat < 0x8000) : w &&& 0x7FFF = w := by
  apply BitVec.eq_of_toNat_eq
  calc (w &&& 0x7FFF).toNat = w.toNat % 2 ^ 15 := by
        rw [BitVec.toNat_and]
        exact Nat.and_two_pow_sub_one_eq_mod w.toNat 15
    _ = w.toNat := Nat.mod_eq_of_lt h

namespace Machine

/-! ### Completion -/

/-- The whole next state of an address word: `A` holds the word itself (40_address_instruction.md R160). -/
theorem exec_addressWord {w : Word} (h : w.toNat < 0x8000) (s : State) :
    exec (.addr (w.extractLsb' 0 15)) s = .next { s with a := w, pc := s.pc + 1, output := none } := by
  rw [exec_addr, Word.setWidth_constant h]

/-- The next step after the last ROM address (20_memory.md R52). -/
theorem step_pastRom {s : State} (h : s.pc = 32768) : step s = .fault (.romRange 32768) := by
  rw [← h]
  exact fetchOutsideRomFaults.1 s (by rw [h]; decide)

/-- Settles O6: a word with bit 15 clear is its own constant, and at the last ROM address the next `PC` is the first
one outside the ROM, where the fetch faults. -/
theorem addressInstructionLoadsConstant : Obligations.AddressInstructionLoadsConstant := by
  intro w s h
  have hw : w.toNat < 0x8000 := w.isAddress_iff.1 (by rw [Word.isAddress, h, Bool.not_false])
  refine ⟨decode_address hw, _, exec_addressWord hw s, rfl, (Word.and_constantMask hw).symm, h, rfl, rfl, rfl, rfl, rfl,
    rfl, rfl, fun hpc => ?_⟩
  have hnext : s.pc + 1 = 32768 := by rw [hpc]; rfl
  exact ⟨hnext, step_pastRom hnext⟩

end Machine

end Sys2Proof

/-! The compute instruction (41_compute_instruction.md): its fetch and the faults of a word that is none, the output of
the CPU's part, its store out of range, and the flags and the jump condition of its result. -/

namespace Sys2Proof.Machine

/-! ### The output of the CPU's part -/

/-- The CPU's part that completes fetched its operand and then committed the result (41_compute_instruction.md R173 to
R176). -/
theorem State.executeCompute_ok {c : Comp} {dest : Dest} {jump : Jump} {s t : State}
    (h : s.executeCompute c dest jump = .ok t) :
    ∃ y, s.operand c.selector = .ok y ∧ t = s.commit dest jump (alu c s.d y) := by
  unfold State.executeCompute at h
  split at h
  case h_1 => cases h
  case h_2 y hy => exact ⟨y, hy, (Except.ok.inj h).symm⟩

/-- Settles O24: phase 4 changes the registers and the output, and nothing else. -/
theorem executeReportsPendingWrite : Obligations.ExecuteReportsPendingWrite := by
  intro c dest jump s t h
  obtain ⟨y, hy, rfl⟩ := State.executeCompute_ok h
  rw [State.commit_eq]
  exact ⟨rfl, rfl, rfl, rfl, y, hy, rfl⟩

/-! ### A store out of range -/

/-- Settles O14: of the two faults a compute instruction has, the one on write is that of its store. -/
theorem storeOutOfRangeFaults : Obligations.StoreOutOfRangeFaults := by
  intro c dest jump s
  rw [exec_compute, compute_fault_iff]
  constructor
  · rintro ⟨ha, ⟨-, hread⟩ | ⟨hsel, hm, -⟩⟩
    · cases hread
    · exact ⟨hsel, hm, ha⟩
  · rintro ⟨hsel, hm, ha⟩
    exact ⟨ha, .inr ⟨hsel, hm, rfl⟩⟩

/-! ### The flags and the jump condition -/

theorem signFlag_iff (r : Word) : signFlag r = true ↔ r.toInt < 0 := by
  rw [← decide_eq_true_iff (p := r.toInt < 0), ← BitVec.msb_eq_toInt, BitVec.msb_eq_getLsbD_last, signFlag]

theorem zeroFlag_iff (r : Word) : zeroFlag r = true ↔ r = 0 := beq_iff_eq

theorem zeroFlag_iff_toInt (r : Word) : zeroFlag r = true ↔ r.toInt = 0 := by
  rw [zeroFlag_iff, ← BitVec.toInt_inj]
  rfl

/-- The sign class that neither flag marks: positive (41_compute_instruction.md R180). -/
theorem flags_clear_iff (r : Word) : signFlag r = false ∧ zeroFlag r = false ↔ 0 < r.toInt := by
  rw [← Bool.not_eq_true, ← Bool.not_eq_true, signFlag_iff, zeroFlag_iff_toInt]
  omega

/-- Settles O16: the two flags are the two signed readings `< 0` and `= 0`, which exclude each other. -/
theorem flagsOfTheResult : Obligations.FlagsOfTheResult := by
  refine fun r => ⟨signFlag_iff r, rfl, zeroFlag_iff r, ?_⟩
  rw [signFlag_iff, zeroFlag_iff_toInt]
  omega

theorem taken_iff_flags (jump : Jump) (r : Word) : taken jump r = true ↔
    (jump.pos = true ∧ signFlag r = false ∧ zeroFlag r = false) ∨ (jump.zero = true ∧ zeroFlag r = true) ∨
      (jump.neg = true ∧ signFlag r = true) := by
  simp only [taken, Bool.or_eq_true, Bool.and_eq_true, Bool.not_eq_true', or_assoc, and_assoc]

theorem taken_iff_toInt (jump : Jump) (r : Word) : taken jump r = true ↔
    (jump.pos = true ∧ 0 < r.toInt) ∨ (jump.zero = true ∧ r.toInt = 0) ∨ (jump.neg = true ∧ r.toInt < 0) := by
  rw [taken_iff_flags, flags_clear_iff, zeroFlag_iff_toInt, signFlag_iff]

/-- Settles O17: the flags of the formula name the three sign classes, of which the mask selects. -/
theorem jumpTakenBySignClass : Obligations.JumpTakenBySignClass :=
  ⟨taken_iff_flags, taken_iff_toInt, by decide, fun r => ⟨taken_none r, taken_all r⟩⟩

/-! ### Fetch and decode -/

/-- The host's phase leaves `PC` and the ROM, so it leaves the word that is fetched (20_memory.md R68). -/
theorem State.FetchesWord.hostPhase {s : State} {w : Word} (h : s.FetchesWord w) : s.hostPhase.FetchesWord w := by
  rw [State.FetchesWord, State.hostPhase_pc, State.hostPhase_rom]
  exact h

theorem State.FetchesWord.romRead {s : State} {w : Word} (h : s.FetchesWord w) : s.romRead s.pc = .ok w := by
  obtain ⟨hpc, hw⟩ := h
  exact State.romRead_loaded hpc hw

theorem State.FetchesWord.fetch_ok {s : State} {w : Word} {i : Instr} (h : s.FetchesWord w) (hd : decode w = .ok i) :
    s.fetch = .ok i := by
  simp only [State.fetch, h.romRead, hd]

theorem State.FetchesWord.fetch_error {s : State} {w : Word} {e : DecodeError} (h : s.FetchesWord w)
    (hd : decode w = .error e) : s.fetch = .error (s.decodeFault w e) := by
  simp only [State.fetch, h.romRead, hd]

/-- A step that fetches an instruction runs it, after the host's phase (41_compute_instruction.md R185). -/
theorem step_of_decode_ok {s : State} {w : Word} {i : Instr} (h : s.FetchesWord w) (hd : decode w = .ok i) :
    step s = exec i s.hostPhase := by
  rw [step, tick, h.hostPhase.fetch_ok hd]

/-- The fault of a fetched word that is no instruction looks at `PC` and `A` alone, which the host's phase leaves. -/
theorem State.decodeFault_hostPhase (s : State) (w : Word) (e : DecodeError) :
    s.hostPhase.decodeFault w e = s.decodeFault w e := by
  cases e with
  | badPadding => simp only [State.decodeFault, State.hostPhase_pc]
  | invalidComputation =>
    simp only [State.decodeFault, State.hostPhase_pc, State.hostPhase_a]
    rcases Nat.lt_or_ge s.a.toNat 24577 with ha | ha
    · simp only [State.memRead_inRange (Nat.le_of_lt_succ ha)]
    · simp only [State.memRead_outOfRange ha]

/-- A step that fetches a word that is no instruction is the fault of that word (60_exceptions.md R281). -/
theorem step_of_decode_error {s : State} {w : Word} {e : DecodeError} (h : s.FetchesWord w)
    (hd : decode w = .error e) : step s = .fault (s.decodeFault w e) := by
  rw [step, tick, h.hostPhase.fetch_error hd, State.decodeFault_hostPhase]

/-- Settles O33: the state after the host's phase fetches the same word, and a host with an empty tape has no phase. -/
theorem stepRunsDecodedInstruction : Obligations.StepRunsDecodedInstruction := by
  intro s w i h hd
  have hstep := step_of_decode_ok h hd
  refine ⟨hstep, fun hkeys => ?_⟩
  rw [hstep, State.hostPhase_of_no_keys hkeys]

/-! ### The faults of a word that is no instruction -/

/-- Settles O36: the decoder rejects the word by its range, `0x8000` to `0xDFFF`, and this fault looks at nothing but
`PC` and the word. -/
theorem badPaddingFaultsFirst : Obligations.BadPaddingFaultsFirst := by
  intro s w h h15 hpad
  have hw : 0x8000 ≤ w.toNat := w.bit15_iff.1 h15
  have hlt : w.toNat < 0xE000 := Nat.lt_of_not_le (mt (Word.padding_iff hw).2 hpad)
  rw [step_of_decode_error h (decode_badPadding hw hlt), State.decodeFault]

theorem State.decodeFault_selector_zero {w : Word} (s : State) (h : w.getLsbD 12 = false) :
    s.decodeFault w .invalidComputation = .invalidComputation s.pc w := by
  rw [State.decodeFault, h, if_neg Bool.false_ne_true]

theorem State.decodeFault_inRange {s : State} (w : Word) (ha : s.a.toNat ≤ 24576) :
    s.decodeFault w .invalidComputation = .invalidComputation s.pc w := by
  simp [State.decodeFault, State.memRead_inRange ha]

theorem State.decodeFault_outOfRange {s : State} {w : Word} (h : w.getLsbD 12 = true) (ha : 24577 ≤ s.a.toNat) :
    s.decodeFault w .invalidComputation = .addressRange .read s.pc s.a := by
  rw [State.decodeFault, h, if_pos rfl, State.memRead_outOfRange ha]

/-- Settles O37: the selector bit of the word decides whether there is an operand fetch, and `A` whether it fails. -/
theorem invalidComputationFaults : Obligations.InvalidComputationFaults := by
  intro s w h hd
  rw [step_of_decode_error h hd]
  constructor
  · rintro (hsel | ha)
    · rw [s.decodeFault_selector_zero hsel]
    · rw [State.decodeFault_inRange w ha]
  · rintro ⟨hsel, ha⟩
    rw [State.decodeFault_outOfRange hsel ha]

end Sys2Proof.Machine

/-! The ALU (42_alu_computations.md): the completion of each computation, on what its result depends, and the arithmetic
of the primitives. -/

namespace Sys2Proof.Machine

/-! ### Completion -/

/-- The common sequence, once its operand is there and its store, if any, is in range (41_compute_instruction.md
R185). -/
theorem completesWith_of_operand {c : Comp} {dest : Dest} {jump : Jump} {s : State} {y : Word}
    (hy : s.operand c.selector = .ok y) (hm : StoreInRange dest s) :
    CompletesWith (c.instr dest jump) dest jump (alu c s.d y) s := by
  have hnext := compute_next (jump := jump) hy fun hd => Nat.lt_succ_of_le (hm hd)
  rw [← exec_compute] at hnext
  obtain ⟨y', hy', ht⟩ := committed_of_exec hnext
  obtain rfl : y = y' := Except.ok.inj (hy.symm.trans hy')
  exact ⟨_, hnext, ht⟩

/-- With selector 0 the operand is `A`, whatever `A` holds (41_compute_instruction.md R173). -/
theorem completesWith_register (c : Comp) {dest : Dest} {jump : Jump} {s : State} {r : Word}
    (hsel : c.selector = false) (hm : StoreInRange dest s) (hr : alu c s.d s.a = r) :
    CompletesWith (c.instr dest jump) dest jump r s :=
  hr ▸ completesWith_of_operand (by rw [hsel, State.operand_register]) hm

/-- With selector 1 the operand is the memory word at `A`; where the fetch is in range, so is the store, which goes to
the same address (41_compute_instruction.md R173, R178). -/
theorem completesWith_memory (c : Comp) {dest : Dest} {jump : Jump} {s : State} {r : Word}
    (hsel : c.selector = true) (ha : s.a.toNat ≤ 24576) (hr : alu c s.d (s.word s.a.toNat) = r) :
    CompletesWith (c.instr dest jump) dest jump r s :=
  hr ▸ completesWith_of_operand (by rw [hsel, State.operand_memory, State.memRead_inRange ha]) fun _ => ha

/-- Settles O7: the three constants do not look at their operand. -/
theorem constantComputationsComplete : Obligations.ConstantComputationsComplete := fun _ _ _ hm =>
  ⟨completesWith_register .zero rfl hm rfl,
    completesWith_register .one rfl hm rfl,
    completesWith_register .negOne rfl hm rfl⟩

/-- Settles O8: selector 0, and the primitives in the terms of `BitVec`. -/
theorem dataRegisterComputationsComplete : Obligations.DataRegisterComputationsComplete := fun _ _ s hm =>
  ⟨completesWith_register .regD rfl hm rfl,
    completesWith_register .notD rfl hm rfl,
    completesWith_register .negD rfl hm (neg16_eq_neg s.d),
    completesWith_register .incD rfl hm rfl,
    completesWith_register .decD rfl hm (add16_ones_eq_pred s.d)⟩

/-- Settles O9: selector 0, so the operand is `A` without a range check. -/
theorem addressRegisterComputationsComplete : Obligations.AddressRegisterComputationsComplete := fun _ _ s hm =>
  ⟨completesWith_register .regA rfl hm rfl,
    completesWith_register .notA rfl hm rfl,
    completesWith_register .negA rfl hm (neg16_eq_neg s.a),
    completesWith_register .incA rfl hm rfl,
    completesWith_register .decA rfl hm (add16_ones_eq_pred s.a)⟩

/-- Settles O10: selector 0; `D` is the first operand and `A` the second, but for `A-D`. -/
theorem registerPairComputationsComplete : Obligations.RegisterPairComputationsComplete := fun _ _ s hm =>
  ⟨completesWith_register .addDA rfl hm rfl,
    completesWith_register .subDA rfl hm (sub16_eq_sub s.d s.a),
    completesWith_register .subAD rfl hm (sub16_eq_sub s.a s.d),
    completesWith_register .andDA rfl hm rfl,
    completesWith_register .orDA rfl hm rfl⟩

/-- Settles O11: selector 1, and the operand fetch is in range. -/
theorem memoryComputationsComplete : Obligations.MemoryComputationsComplete := fun _ _ s ha =>
  ⟨completesWith_memory .memM rfl ha rfl,
    completesWith_memory .notM rfl ha rfl,
    completesWith_memory .negM rfl ha (neg16_eq_neg (s.word s.a.toNat)),
    completesWith_memory .incM rfl ha rfl,
    completesWith_memory .decM rfl ha (add16_ones_eq_pred (s.word s.a.toNat))⟩

/-- Settles O12: selector 1; `D` is the first operand and the memory word the second, but for `M-D`. -/
theorem dataMemoryComputationsComplete : Obligations.DataMemoryComputationsComplete := fun _ _ s ha =>
  ⟨completesWith_memory .addDM rfl ha rfl,
    completesWith_memory .subDM rfl ha (sub16_eq_sub s.d (s.word s.a.toNat)),
    completesWith_memory .subMD rfl ha (sub16_eq_sub (s.word s.a.toNat) s.d),
    completesWith_memory .andDM rfl ha rfl,
    completesWith_memory .orDM rfl ha rfl⟩

/-! ### On what a result depends -/

/-- The result of a computation that names neither `A` nor `M` does not depend on the operand (42_alu_computations.md
R232). -/
theorem alu_ignores_operand {c : Comp} (hc : c ∈ [Comp.zero, .one, .negOne, .regD, .notD, .negD, .incD, .decD])
    (x y y' : Word) : alu c x y = alu c x y' := by
  fin_cases hc <;> rfl

/-- Settles O27: the independences are those of the two lemmas on `D` and on the operand, whose lists begin with the
constants. Each dependence has one pair of operands for all its computations; 0 and 3 beside 1 differ also under the
bitwise ones. -/
theorem resultsDependOn : Obligations.ResultsDependOn := by
  refine ⟨fun c hc x y x' y' => ?_,
    fun c hc => ⟨alu_ignores_operand (List.mem_append_right [Comp.zero, .one, .negOne] hc), 0, 1, 0, ?_⟩,
    fun c hc => ⟨alu_ignores_d (List.mem_append_right [Comp.zero, .one, .negOne] hc), 0, 0, 1, ?_⟩,
    fun c hc => ⟨⟨0, 3, 1, ?_⟩, 1, 0, 3, ?_⟩,
    fun c s hsel => by rw [hsel, State.operand_register]⟩
  · calc alu c x y = alu c x' y := alu_ignores_d (List.mem_append_left _ hc) x x' y
      _ = alu c x' y' := alu_ignores_operand (List.mem_append_left _ hc) x' y y'
  all_goals
    revert c
    decide

/-! ### The arithmetic of the primitives -/

/-- Settles O28: the primitives are those of `BitVec`, whose unsigned and signed readings are reduced modulo 65536. -/
theorem arithmeticWrapsModulo65536 : Obligations.ArithmeticWrapsModulo65536 := by
  intro x y
  rw [neg16_eq_neg, sub16_eq_sub]
  refine ⟨BitVec.toNat_add x y, BitVec.toNat_neg x, ?_, BitVec.toNat_not, BitVec.toInt_add x y, BitVec.toInt_sub⟩
  have hy := y.isLt
  rw [BitVec.toNat_sub]
  congr 1
  omega

/-- Settles O29: the boundary values are computed, and the laws are those of the ring and of the bits of a `BitVec`. -/
theorem boundaryLaws : Obligations.BoundaryLaws := by
  refine ⟨rfl, rfl, rfl, rfl, rfl, rfl, rfl, fun x y v => ?_⟩
  simp only [neg16_eq_neg, sub16_eq_sub]
  exact ⟨neg_neg v, BitVec.not_not, BitVec.neg_eq_not_add v, sub_self v, zero_sub v, sub_zero v, (neg_sub y x).symm,
    BitVec.and_not_self v, BitVec.or_not_self v⟩

end Sys2Proof.Machine

/-! The jump mnemonics (43_destinations_and_jumps.md): the range of results on which each of the seven jumps. -/

namespace Sys2Proof.Machine

/-- The sign classes as ranges of the unsigned reading (43_destinations_and_jumps.md R251 to R256). -/
theorem taken_iff_toNat (jump : Jump) (r : Word) : taken jump r = true ↔
    (jump.pos = true ∧ 1 ≤ r.toNat ∧ r.toNat ≤ 0x7FFF) ∨ (jump.zero = true ∧ r.toNat = 0) ∨
      (jump.neg = true ∧ 0x8000 ≤ r.toNat) := by
  have hr := r.isLt
  have hsigned := BitVec.toInt_eq_toNat_cond r
  have hpos : 0 < r.toInt ↔ 1 ≤ r.toNat ∧ r.toNat ≤ 0x7FFF := by omega
  have hzero : r.toInt = 0 ↔ r.toNat = 0 := by omega
  have hneg : r.toInt < 0 ↔ 0x8000 ≤ r.toNat := by omega
  rw [taken_iff_toInt, hpos, hzero, hneg]

/-- A jump token has one mask, so what holds of its mask holds of every mask it stands for (30_encoding.md R102). -/
theorem forall_of_jumpOfToken {token : Option Text} {mask : Jump} {P : Jump → Prop}
    (htoken : Asm.jumpOfToken token = some mask) (h : P mask) : ∀ j, Asm.jumpOfToken token = some j → P j := by
  intro j hj
  obtain rfl : mask = j := Option.some.inj (htoken.symm.trans hj)
  exact h

/-- Settles O18: the mask of each mnemonic is looked up in the table of R102, and its bits select among the three ranges;
`JGE` and `JNE` name the union of the two that they select. -/
theorem jumpMnemonicsTest : Obligations.JumpMnemonicsTest := by
  intro r
  refine ⟨forall_of_jumpOfToken (mask := ⟨false, false, true⟩) rfl ?JGT,
    forall_of_jumpOfToken (mask := ⟨false, true, false⟩) rfl ?JEQ,
    forall_of_jumpOfToken (mask := ⟨false, true, true⟩) rfl ?JGE,
    forall_of_jumpOfToken (mask := ⟨true, false, false⟩) rfl ?JLT,
    forall_of_jumpOfToken (mask := ⟨true, false, true⟩) rfl ?JNE,
    forall_of_jumpOfToken (mask := ⟨true, true, false⟩) rfl ?JLE,
    forall_of_jumpOfToken (mask := ⟨true, true, true⟩) rfl ?JMP⟩
  case JGT | JEQ | JLT | JLE => simp [taken_iff_toNat]
  case JGE =>
    have hunion : 1 ≤ r.toNat ∧ r.toNat ≤ 0x7FFF ∨ r.toNat = 0 ↔ r.toNat ≤ 0x7FFF := by omega
    simpa [taken_iff_toNat] using hunion
  case JNE =>
    have hunion : 1 ≤ r.toNat ∧ r.toNat ≤ 0x7FFF ∨ 0x8000 ≤ r.toNat ↔ r.toNat ≠ 0 := by omega
    simpa [taken_iff_toNat] using hunion
  case JMP => exact taken_all r

end Sys2Proof.Machine

/-! The exceptions (60_exceptions.md): the range fault of the operand fetch, and the rejection of an image. -/

namespace Sys2Proof.Machine

/-! ### The operand fetch out of range -/

/-- Of the two faults of a compute instruction, the one on read is that of its operand fetch (60_exceptions.md R273). -/
theorem compute_readFault_iff {c : Comp} {dest : Dest} {jump : Jump} {s : State} {pc addr : Word} :
    compute c dest jump s = .fault (.addressRange .read pc addr) ↔
      c.selector = true ∧ 24577 ≤ s.a.toNat ∧ pc = s.pc ∧ addr = s.a := by
  rw [compute_fault_iff]
  constructor
  · rintro ⟨ha, ⟨hsel, hread⟩ | ⟨-, -, hwrite⟩⟩
    · cases hread
      exact ⟨hsel, ha, rfl, rfl⟩
    · cases hwrite
  · rintro ⟨hsel, ha, rfl, rfl⟩
    exact ⟨ha, .inl ⟨hsel, rfl⟩⟩

/-- Settles O13: the ten computations are those with selector 1. A word with an invalid opcode makes the same operand
fetch before it is rejected; and the address instruction never faults. -/
theorem memoryOperandOutOfRangeFaults : Obligations.MemoryOperandOutOfRangeFaults := by
  refine ⟨fun c dest jump s hc ha => ?_,
    fun s w h hd hsel ha => (invalidComputationFaults s w h hd).2 ⟨hsel, ha⟩,
    fun i s pc addr h => ?_⟩
  · rw [exec_compute]
    exact compute_readFault_iff.2 ⟨c.selector_iff.2 hc, ha, rfl, rfl⟩
  · rcases Instr.cases_form i with ⟨v, rfl⟩ | ⟨c, dest, jump, rfl⟩
    · rw [exec_addr] at h
      cases h
    · rw [exec_compute] at h
      obtain ⟨hsel, ha, -, -⟩ := compute_readFault_iff.1 h
      exact ⟨ha, c, dest, jump, rfl, c.selector_iff.1 hsel⟩

/-! ### The rejection of an image -/

/-- An image that is odd or oversized is rejected (60_exceptions.md R276). -/
theorem loadImage_error {bytes : List Byte} (hbad : bytes.length % 2 = 1 ∨ 65536 < bytes.length) (s : State) :
    loadImage bytes s = .error (.imageLoad bytes.length) := by
  refine if_neg fun hwf => ?_
  obtain ⟨heven, hmax⟩ := (imageWellFormed_iff bytes).1 hwf
  rw [Config.imageMaxBytes] at hmax
  omega

/-- Settles O42: an image that is neither odd nor oversized loads, so `ImageLoad` is the answer for no other; the empty
one is among those that load, and the ROM built from it lists no word. -/
theorem badImageRejected : Obligations.BadImageRejected := by
  refine ⟨fun bytes s => ⟨?_, fun hbad => ⟨_, loadImage_error hbad s⟩⟩,
    fun bytes s heven hmax => ⟨_, loadImage_ok heven hmax s⟩,
    fun s => ⟨_, loadImage_ok (bytes := []) rfl (Nat.zero_le _) s, fun addr => rfl⟩⟩
  rintro ⟨recorded, hfault⟩
  by_contra hgood
  rw [loadImage_ok (by omega) (by omega)] at hfault
  cases hfault

end Sys2Proof.Machine

/-! Reset and hazards (70_reset_and_hazards.md): the binary image and the ROM it loads, the fetch past it, and the idle
loop of a quiescent machine. -/

namespace Sys2Proof.Asm

/-! ### The bytes of a binary image -/

@[simp] theorem binaryImage_cons (w : Word) (ws : List Word) :
    binaryImage (w :: ws) = w.extractLsb' 8 8 :: w.extractLsb' 0 8 :: binaryImage ws := rfl

theorem length_binaryImage (ws : List Word) : (binaryImage ws).length = 2 * ws.length := by
  induction ws with
  | nil => rfl
  | cons w ws ih =>
    simp only [binaryImage_cons, List.length_cons, ih]
    omega

/-- Word `i` has its high byte at `2i` and its low byte at `2i + 1` (30_encoding.md R143). -/
theorem getElem?_binaryImage {ws : List Word} {i : Nat} {w : Word} (h : ws[i]? = some w) :
    (binaryImage ws)[2 * i]? = some (w.extractLsb' 8 8) ∧ (binaryImage ws)[2 * i + 1]? = some (w.extractLsb' 0 8) := by
  induction ws generalizing i with
  | nil => cases h
  | cons w' ws ih =>
    cases i with
    | zero =>
      cases h
      exact ⟨rfl, rfl⟩
    | succ i => exact ih h

theorem highByte_toNat (w : Word) : (w.extractLsb' 8 8).toNat = w.toNat / 256 := by
  have := w.isLt
  rw [BitVec.extractLsb'_toNat, Nat.shiftRight_eq_div_pow]
  omega

theorem lowByte_toNat (w : Word) : (w.extractLsb' 0 8).toNat = w.toNat % 256 := by
  rw [BitVec.extractLsb'_toNat, Nat.shiftRight_zero]

end Sys2Proof.Asm

namespace Sys2Proof.Machine

/-! ### Loading an image -/

/-- A load that fails records the image's length (log 23): an image of a loadable length does not fail. -/
theorem eq_imageLoad_of_loadImage_error {bytes : List Byte} {s : State} {f : Fault}
    (h : loadImage bytes s = .error f) : f = .imageLoad bytes.length := by
  by_cases hbad : bytes.length % 2 = 1 ∨ 65536 < bytes.length
  · exact (Except.error.inj ((loadImage_error hbad s).symm.trans h)).symm
  · rw [loadImage_ok (by omega) (by omega)] at h
    cases h

/-- The binary form of words that fit the ROM loads as these words. -/
theorem loadImage_binaryImage {ws : List Word} (h : ws.length ≤ 32768) (s : State) :
    loadImage (Asm.binaryImage ws) s = .ok { s with rom := romFrom 0 ws } := by
  have hlen := Asm.length_binaryImage ws
  rw [loadImage_ok (by omega) (by omega), wordsOfImage_binaryImage]

theorem lookup_romFrom_zero (ws : List Word) (i : Nat) : Store.lookup (romFrom 0 ws) i = ws[i]? := by
  rw [lookup_romFrom, if_pos (Nat.zero_le i), Nat.sub_zero]

/-- A machine whose ROM holds the words fetches each at its index (20_memory.md R52). -/
theorem State.romRead_romFrom {ws : List Word} {i : Nat} {w : Word} {s : State} (hrom : s.rom = romFrom 0 ws)
    (hfit : ws.length ≤ 32768) (hw : ws[i]? = some w) : s.romRead (BitVec.ofNat 16 i) = .ok w := by
  obtain ⟨hi, -⟩ := List.getElem?_eq_some_iff.1 hw
  have haddr : (BitVec.ofNat 16 i).toNat = i := by
    rw [BitVec.toNat_ofNat]
    omega
  exact State.romRead_loaded (by omega) (by rw [hrom, haddr, lookup_romFrom_zero, hw])

/-- Settles O41: the loader builds the ROM from the pairs of bytes, and the pairs of the binary form are its words. -/
theorem imageLoadPlacesWords : Obligations.ImageLoadPlacesWords := by
  refine ⟨fun bytes s heven hmax => ?_, Asm.length_binaryImage, fun ws i w hw => ?_,
    fun bytes s f => eq_imageLoad_of_loadImage_error, fun ws s hfit => ?_⟩
  · exact ⟨_, loadImage_ok heven hmax s, Rom.wf_image hmax, romHoldsImage_romFrom bytes,
      rfl, rfl, rfl, rfl, rfl, rfl, rfl⟩
  · obtain ⟨hhigh, hlow⟩ := Asm.getElem?_binaryImage hw
    exact ⟨_, _, hhigh, hlow, Asm.highByte_toNat w, Asm.lowByte_toNat w⟩
  · exact ⟨_, loadImage_binaryImage hfit s, Rom.wf_romFrom hfit, lookup_romFrom_zero ws,
      fun i w => State.romRead_romFrom rfl hfit, rfl, rfl, rfl, rfl, rfl, rfl, rfl⟩

/-! ### The fetch past the image -/

/-- A ROM address where no word is loaded is a fault to fetch from (70_reset_and_hazards.md R317, log 3). -/
theorem State.romRead_unloaded {s : State} {pc : Word} (hpc : pc.toNat ≤ 32767)
    (h : Store.lookup s.rom pc.toNat = none) : s.romRead pc = .error (.romUnloaded pc) := by
  rcases s.romRead_cases pc with ⟨hr, -⟩ | ⟨-, w, hw, -⟩ | ⟨-, -, he⟩
  · omega
  · rw [h] at hw
    cases hw
  · exact he

/-- A step stops where its fetch does, since the host's phase leaves `PC` and the ROM. -/
theorem step_of_romRead_error {s : State} {f : Fault} (h : s.romRead s.pc = .error f) : step s = .fault f := by
  have hhost : s.hostPhase.romRead s.hostPhase.pc = .error f := by
    rw [State.romRead, State.hostPhase_rom, State.hostPhase_pc]
    exact h
  rw [step, tick, State.fetch, hhost]

/-- Settles O35: the model has no `ROM_FILL`, so the fetch itself fails. -/
theorem fetchPastImageFaults : Obligations.FetchPastImageFaults :=
  fun _ hpc hnone => step_of_romRead_error (State.romRead_unloaded hpc hnone)

/-! ### Quiescence -/

/-- The word 0xEA87 is `0;JMP` (70_reset_and_hazards.md R327; log 1). -/
theorem decode_jmp : decode 0xEA87 = .ok (.zero ⟨false, false, false⟩ ⟨true, true, true⟩) := by decide

/-- `0;JMP` goes to `A` and leaves the registers and the memory (43_destinations_and_jumps.md R257). -/
theorem exec_jmp (s : State) :
    exec (.zero ⟨false, false, false⟩ ⟨true, true, true⟩) s = .next { s with pc := s.a, output := none } := by
  have h := compute_next (c := .zero) (dest := ⟨false, false, false⟩) (jump := ⟨true, true, true⟩) (s := s) (y := s.a)
    rfl nofun
  rw [taken_all] at h
  exact h

/-- At the first word of the loop, `@L` takes `A` to `L`. -/
theorem QuiescentAt.step_first {L : Nat} {s : State} (h : QuiescentAt L s) (hpc : s.pc.toNat = L) :
    step s = .next { s.hostPhase with a := encodeA L, pc := s.pc + 1, output := none } := by
  obtain ⟨hfirst, -, hrom, -⟩ := h
  rw [Config.romSize] at hrom
  have hword : (encodeA L).toNat < 0x8000 := by
    rw [encodeA_toNat]
    omega
  have hfetch : s.FetchesWord (encodeA L) := ⟨by omega, by rw [hpc, hfirst]⟩
  rw [step_of_decode_ok hfetch (decode_address hword), exec_addressWord hword, State.hostPhase_pc]

/-- At the second word of the loop, `0;JMP` goes back to the address in `A`. -/
theorem QuiescentAt.step_second {L : Nat} {s : State} (h : QuiescentAt L s) (hpc : s.pc.toNat = L + 1) :
    step s = .next { s.hostPhase with a := s.a, pc := s.a, output := none } := by
  obtain ⟨-, hsecond, hrom, -⟩ := h
  rw [Config.romSize] at hrom
  have hfetch : s.FetchesWord 0xEA87 := ⟨by omega, by rw [hpc, hsecond]⟩
  rw [step_of_decode_ok hfetch decode_jmp, exec_jmp, State.hostPhase_a]

/-- What a step of a quiescent machine does: after the host's phase only `A`, `PC` and the output are written, `A` to
`L` and `PC` to the other word of the loop (70_reset_and_hazards.md R327). -/
theorem QuiescentAt.step_next {L : Nat} {s : State} (h : QuiescentAt L s) :
    ∃ a pc : Word, step s = .next { s.hostPhase with a := a, pc := pc, output := none } ∧ a.toNat = L ∧
      (s.pc.toNat = L ∧ pc.toNat = L + 1 ∨ s.pc.toNat = L + 1 ∧ pc.toNat = L) := by
  have hrom := h.inRom
  rw [Config.romSize] at hrom
  rcases h.at_ with hpc | ⟨hpc, ha⟩
  · have hnext : (s.pc + 1).toNat = L + 1 := by
      rw [BitVec.toNat_add, hpc]
      exact Nat.mod_eq_of_lt (show L + 1 < 2 ^ 16 by omega)
    exact ⟨_, _, h.step_first hpc, by rw [encodeA_toNat]; omega, .inl ⟨hpc, hnext⟩⟩
  · exact ⟨_, _, h.step_second hpc, ha, .inr ⟨hpc, ha⟩⟩

/-- Quiescence is kept where the ROM is, in either of its two positions. -/
theorem QuiescentAt.of_rom_eq {L : Nat} {s t : State} (h : QuiescentAt L s) (hrom : t.rom = s.rom)
    (ha : t.a.toNat = L) (hpc : t.pc.toNat = L ∨ t.pc.toNat = L + 1) : QuiescentAt L t where
  first := by rw [hrom, h.first]
  second := by rw [hrom, h.second]
  inRom := h.inRom
  at_ := hpc.imp_right fun hsecond => ⟨hsecond, ha⟩

/-- Settles O44: of the whole step only the host's phase can touch the data memory, and it writes the keyboard word. -/
theorem quiescenceLasts : Obligations.QuiescenceLasts := by
  intro L s h
  obtain ⟨a, pc, hstep, ha, hpc⟩ := h.step_next
  have hloop : pc.toNat = L ∨ pc.toNat = L + 1 := by omega
  have hfirst : s.pc.toNat = L → pc.toNat = L + 1 := by omega
  have hsecond : s.pc.toNat = L + 1 → pc.toNat = L := by omega
  refine ⟨_, hstep, h.of_rom_eq s.hostPhase_rom ha hloop, s.hostPhase_d, ha, fun addr hne => ?_, fun hkeys => ?_,
    hfirst, hsecond⟩
  · exact (s.hostPhase_word addr).trans (if_neg hne)
  · rw [State.hostPhase_of_no_keys hkeys]

end Sys2Proof.Machine
